-- ==== Sys2Proof/Word.lean ====
section
/-! DEFINITION. The words XB moves: bytes, request and response words, and the two operand fields
(20_memory.md R79, 30_encoding.md R100, R101, R110). -/
namespace Sys2Proof

/-- One byte of a page (R79). -/
abbrev Byte := BitVec 8

/-- A request word (R100) or a response word (R110). -/
abbrev Word64 := BitVec 64

/-- Operand field `A` of a request word (R101). -/
abbrev OperandA := BitVec 32

/-- A frame number as XB holds it: operand field `B` (R101), a `tlb_frame` field (R35), a `pt_frame`
field (R39), `FREE_NEXT` (R41) and `VICTIM` (R42) are all 16 bits wide. -/
abbrev FrameNo := BitVec 16

end Sys2Proof
end

