-- ==== Sys2Proof/Config.lean ====
section
/-! DEFINITION. The configuration record XB is parameterised by (00_scope.md R9, R10), and the values
the spec leaves open. -/
namespace Sys2Proof

/-- The configuration record of R9. `store` holds the bytes of `STORE`; `STORE_LEN` is its length. The
defaults are those of R9; R9 gives `STORE` no default (it is an input): the empty store stands there,
a DESIGN CHOICE (log entry 1). `FRAME_INIT` is `Config.frameInit` below. -/
structure Config where
  /-- `OFFSET_BITS`. -/
  offsetBits : Nat := 8
  /-- `PN_BITS`. -/
  pnBits : Nat := 8
  /-- `TLB_CAP`. -/
  tlbCap : Nat := 16
  /-- `FRAME_SLOTS`. -/
  frameSlots : Nat := 256
  /-- `FRAME_LIMIT`. -/
  frameLimit : Nat := 128
  /-- `CNT_WIDTH`. -/
  cntWidth : Nat := 32
  /-- `STORE`. -/
  store : List Byte := []
  deriving DecidableEq, Repr

/-- `PAGE_SIZE = 2^OFFSET_BITS` (R9). -/
def Config.pageSize (c : Config) : Nat := 2 ^ c.offsetBits

/-- `NUM_PAGES = 2^PN_BITS` (R9). -/
def Config.numPages (c : Config) : Nat := 2 ^ c.pnBits

/-- `STORE_LEN` (R9, R76). -/
def Config.storeLen (c : Config) : Nat := c.store.length

/-- The largest value a counter of `CNT_WIDTH` bits holds (R45, R271). -/
def Config.cntMax (c : Config) : Nat := 2 ^ c.cntWidth - 1

/-- A well-formed configuration, condition by condition as R10 lists them. -/
abbrev Config.WellFormed (c : Config) : Prop :=
  (1 ≤ c.offsetBits ∧ c.offsetBits ≤ 16) ∧
  1 ≤ c.pnBits ∧
  c.offsetBits + c.pnBits ≤ 32 ∧
  1 ≤ c.tlbCap ∧
  1 ≤ c.frameLimit ∧
  c.frameLimit ≤ c.frameSlots ∧
  c.frameSlots ≤ 2 ^ 16 ∧
  c.frameLimit < 2 ^ 16 ∧
  c.frameLimit * c.pageSize ≤ 2 ^ 32 ∧
  c.tlbCap < 2 ^ 16

/-- The documented defaults of R9. -/
def Config.defaults : Config := {}

/-- `FRAME_INIT` (R9, R44), a free value: the byte at offset `o` of frame `f` before any write, as the
`d`-th reset drew it (R341: a fresh draw at every reset). It has no body, so a claim about it holds
for every draw (log entry 4). -/
opaque Config.frameInit (d f o : Nat) : Byte

/-- A free value: what `RES0` shows of a value too large for its 32 bits, which the spec does not say.
Only a counter with `CNT_WIDTH > 32` can hold one (log entry 8). -/
opaque Config.wideRes0 (v : Nat) : BitVec 32

/-- A free value: what `RES1` shows of a page number too large for its 16 bits, which the spec does not
say. Only TLB_INSERT with `PN_BITS > 16` can return one (log entry 9). -/
opaque Config.wideRes1 (v : Nat) : BitVec 16

end Sys2Proof
end

