-- ==== Sys2Proof/Machine/State.lean ====
section
/-! DEFINITION. The state of XB (10_state.md R33 to R49), the reasons a step can stop, and the state after
reset (70_reset_and_hazards.md R340). -/
namespace Sys2Proof.Machine
open Sys2Proof

/-- A TLB entry `(page, frame)` (R34, R35). A page number has `PN_BITS` bits, a width that the
configuration sets, so it is held as a number; `State.Legal` of Safety.lean bounds it (log entry 17). -/
structure TlbEntry where
  page : Nat
  frame : FrameNo
  deriving DecidableEq, Repr

/-- The page table (R38, R39): the resident pages with their frames, pages strictly rising; a page that
is not listed maps to `None` (log entry 17). -/
abbrev PageTable := List (Nat × FrameNo)

/-- The frame store (R43) as cells of the physical address space (20_memory.md R70(b)), addresses strictly
rising. An address that is not listed has not been written since reset: it holds no value of its
own, and reads as the free value `Config.frameInit` (R44, log entry 4). -/
abbrev Memory := List Host.Cell

/-- What the host can do to XB between two commands (60_exceptions.md R310, R321, 70_reset_and_hazards.md R342). -/
inductive HostInput where
  /-- A request word, sent when no other is outstanding (R16, R351). -/
  | command (w : Word64)
  /-- A request word sent while another is outstanding, against the host's duty (R351). -/
  | commandWhileOutstanding (w : Word64)
  /-- Reset (R340, R342). -/
  | reset
  deriving DecidableEq, Repr

/-- The state. The architectural tuple of R49 is `(tlb, pt, freeNext, victim, frame, hits, faults, lookups)`;
`cfg`, `inputs`, `response` and `draw` are the model's own fields, which carry what R33 calls the
parameters of the step, and the response (log entries 1 to 4). -/
structure State where
  /-- The configuration record and the store, parameters of the step (R9, R33, R76). -/
  cfg : Config
  /-- `tlb`, oldest entry first (R34). -/
  tlb : List TlbEntry
  /-- `pt` (R38). -/
  pt : PageTable
  /-- `FREE_NEXT` (R41). -/
  freeNext : BitVec 16
  /-- `VICTIM` (R42). -/
  victim : BitVec 16
  /-- `frame` (R43). -/
  frame : Memory
  /-- `HITS` (R45). -/
  hits : Nat
  /-- `FAULTS` (R45). -/
  faults : Nat
  /-- `LOOKUPS` (R45). -/
  lookups : Nat
  /-- Which draw of `FRAME_INIT` is in force: the number of resets since the first (R341). -/
  draw : Nat
  /-- What the host will do next, in order (R16, R31). -/
  inputs : List HostInput
  /-- The response word last given, if any since reset (R110). -/
  response : Option Word64
  deriving DecidableEq, Repr

/-- The reasons XB takes no step. -/
inductive Fault where
  /-- Raised by `serve` when the host sends a request while another is outstanding: stuck, as R351 and U7
  of 93_implementation_defined.md ask. Safe: nothing can be proved of what XB does then (log entry 5). -/
  | requestWhileOutstanding
  deriving DecidableEq, Repr

/-- The reasons the model declines. -/
inductive Refusal where
  /-- Raised by an arm of `exec` that has no meaning yet. Safe. No arm raises it. -/
  | notModelled (mnemonic : String)
  /-- Raised by `step` when the configuration breaks R10: no XB exists for it and no step is defined
  (U8 of 93_implementation_defined.md). Safe (log entry 6). -/
  | badConfiguration
  deriving DecidableEq, Repr

/-- The errors of a command, answered in its response (60_exceptions.md R300). -/
inductive XbError where
  /-- IllegalCommand (30_encoding.md R105). -/
  | illegalCommand
  /-- OutOfRange (30_encoding.md R106, 20_memory.md R72). -/
  | outOfRange
  /-- StoreReadError (20_memory.md R77). -/
  | storeReadError
  deriving DecidableEq, Repr

/-- The state right after reset under configuration `c` (70_reset_and_hazards.md R340): TLB and page table empty,
pointers and counters 0, every frame byte the draw of `FRAME_INIT`, nothing sent and nothing answered. -/
def State.boot (c : Config) : State where
  cfg := c
  tlb := []
  pt := []
  freeNext := 0
  victim := 0
  frame := []
  hits := 0
  faults := 0
  lookups := 0
  draw := 0
  inputs := []
  response := none

/-- The machine right after reset, at the documented defaults of R9. -/
def State.reset : State := State.boot Config.defaults

end Sys2Proof.Machine
end

