-- ==== Sys2Proof/Machine/Operands.lean ====
section
/-! DEFINITION. The operand forms of 30_encoding.md R102, each with the range check of R106: a page, a
frame, an offset, a TLB slot index, a status selector. A logical address has no range and no form of
its own. An operand is the whole of its field, read unsigned (R104). -/
namespace Sys2Proof.Machine
open Sys2Proof

/-- `p < NUM_PAGES` (R102). -/
def pageInRange (c : Config) (a : OperandA) : Bool := decide (a.toNat < c.numPages)

/-- `f < FRAME_LIMIT` (R102). -/
def frameInRange (c : Config) (b : FrameNo) : Bool := decide (b.toNat < c.frameLimit)

/-- `o < PAGE_SIZE` (R102). -/
def offsetInRange (c : Config) (a : OperandA) : Bool := decide (a.toNat < c.pageSize)

/-- `i < TLB_CAP` (R102). -/
def slotInRange (c : Config) (a : OperandA) : Bool := decide (a.toNat < c.tlbCap)

/-- `s <= 5` (R102). -/
def selectorInRange (a : OperandA) : Bool := decide (a.toNat ≤ 5)

/-- A page operand, or OutOfRange (R106). -/
def pageOperand (c : Config) (a : OperandA) : Except XbError Nat :=
  if pageInRange c a then .ok a.toNat else .error .outOfRange

/-- A frame operand, or OutOfRange (R106). -/
def frameOperand (c : Config) (b : FrameNo) : Except XbError FrameNo :=
  if frameInRange c b then .ok b else .error .outOfRange

/-- An offset operand, or OutOfRange (R106). -/
def offsetOperand (c : Config) (a : OperandA) : Except XbError Nat :=
  if offsetInRange c a then .ok a.toNat else .error .outOfRange

/-- A TLB slot index, or OutOfRange (R106). -/
def slotOperand (c : Config) (a : OperandA) : Except XbError Nat :=
  if slotInRange c a then .ok a.toNat else .error .outOfRange

/-- A status selector, or OutOfRange (R106). -/
def selectorOperand (a : OperandA) : Except XbError Nat :=
  if selectorInRange a then .ok a.toNat else .error .outOfRange

end Sys2Proof.Machine
end

