-- ==== Sys2Proof/Syntax.lean ====
section
/-! DEFINITION. The commands of XB (30_encoding.md R102, R103; spec/opcode_table.json): a command plays
the role of an instruction (00_scope.md R16). -/
namespace Sys2Proof

/-- The eleven opcodes that are not reserved (R103). -/
inductive Opcode where
  | translate | decode | tlbLookup | tlbInsert | tlbRead | ptLookup | ptInsert | frameAlloc
  | frameLoad | frameRead | statsRead
  deriving DecidableEq, Repr

/-- A command with its operands as the request word carries them: a page, offset, slot index, selector
or logical address is the whole of field `A`, a frame the whole of field `B` (R102, R104). The operand
order is the assembler's (R116). -/
inductive Instr where
  /-- TRANSLATE `la` (44_translate.md R247). -/
  | translate (la : OperandA)
  /-- DECODE `la` (40_address_codec.md R143). -/
  | decode (la : OperandA)
  /-- TLB_LOOKUP `page` (41_tlb.md R160). -/
  | tlbLookup (page : OperandA)
  /-- TLB_INSERT `page, frame` (41_tlb.md R161). -/
  | tlbInsert (page : OperandA) (frame : FrameNo)
  /-- TLB_READ `index` (41_tlb.md R163). -/
  | tlbRead (index : OperandA)
  /-- PT_LOOKUP `page` (42_page_table.md R190). -/
  | ptLookup (page : OperandA)
  /-- PT_INSERT `page, frame` (42_page_table.md R191). -/
  | ptInsert (page : OperandA) (frame : FrameNo)
  /-- FRAME_ALLOC (43_frames.md R210). -/
  | frameAlloc
  /-- FRAME_LOAD `frame, page` (43_frames.md R212). -/
  | frameLoad (frame : FrameNo) (page : OperandA)
  /-- FRAME_READ `frame, offset` (43_frames.md R214). -/
  | frameRead (frame : FrameNo) (offset : OperandA)
  /-- STATS_READ `sel` (45_stats.md R273). -/
  | statsRead (sel : OperandA)
  deriving DecidableEq, Repr

end Sys2Proof
end

