-- ==== Sys2Proof/WellFormed.lean ====
section
/-! DEFINITION. When a command's operands lie in the ranges 30_encoding.md R102 gives them under a
configuration. -/
namespace Sys2Proof
open Sys2Proof.Machine

/-- Every operand is in the range R102 gives it, field `A` before field `B` (R107). A command that is not
well formed is answered OUT_OF_RANGE (R106). -/
def wellFormed (c : Config) : Instr → Bool
  | .translate _ => true
  | .decode _ => true
  | .tlbLookup page => pageInRange c page
  | .tlbInsert page frame => pageInRange c page && frameInRange c frame
  | .tlbRead index => slotInRange c index
  | .ptLookup page => pageInRange c page
  | .ptInsert page frame => pageInRange c page && frameInRange c frame
  | .frameAlloc => true
  | .frameLoad frame page => pageInRange c page && frameInRange c frame
  | .frameRead frame offset => offsetInRange c offset && frameInRange c frame
  | .statsRead sel => selectorInRange sel

end Sys2Proof
end

