-- ==== Sys2Proof/Decode.lean ====
section
/-! DEFINITION. Request words: the fields of 30_encoding.md R101, the opcode map of R103, the decoder with
the order of checks of R107, the encoder of R116, and the byte order of 20_memory.md R79. -/
namespace Sys2Proof

/-- Field `OP`, bits 63:60 (R101). -/
def fieldOp (w : Word64) : BitVec 4 := w.extractLsb' 60 4

/-- Field `RSV`, bits 59:48 (R101). -/
def fieldRsv (w : Word64) : BitVec 12 := w.extractLsb' 48 12

/-- Field `B`, bits 47:32 (R101). -/
def fieldB (w : Word64) : FrameNo := w.extractLsb' 32 16

/-- Field `A`, bits 31:0 (R101). -/
def fieldA (w : Word64) : OperandA := w.extractLsb' 0 32

/-- The opcode map (R103). `none`: a reserved opcode. -/
def opcodeOf (op : BitVec 4) : Option Opcode :=
  match op.toNat with
  | 0x1 => some .translate
  | 0x2 => some .decode
  | 0x3 => some .tlbLookup
  | 0x4 => some .tlbInsert
  | 0x5 => some .tlbRead
  | 0x6 => some .ptLookup
  | 0x7 => some .ptInsert
  | 0x8 => some .frameAlloc
  | 0x9 => some .frameLoad
  | 0xA => some .frameRead
  | 0xB => some .statsRead
  | _ => none

/-- Whether the opcode has an operand in field `A` (R102). -/
def usesA : Opcode → Bool
  | .frameAlloc => false
  | .translate | .decode | .tlbLookup | .tlbInsert | .tlbRead | .ptLookup | .ptInsert | .frameLoad
  | .frameRead | .statsRead => true

/-- Whether the opcode has an operand in field `B` (R102). -/
def usesB : Opcode → Bool
  | .tlbInsert | .ptInsert | .frameLoad | .frameRead => true
  | .translate | .decode | .tlbLookup | .tlbRead | .ptLookup | .frameAlloc | .statsRead => false

/-- The command an opcode makes of the two operand fields (R102, R104). -/
def buildInstr (o : Opcode) (a : OperandA) (b : FrameNo) : Instr :=
  match o with
  | .translate => .translate a
  | .decode => .decode a
  | .tlbLookup => .tlbLookup a
  | .tlbInsert => .tlbInsert a b
  | .tlbRead => .tlbRead a
  | .ptLookup => .ptLookup a
  | .ptInsert => .ptInsert a b
  | .frameAlloc => .frameAlloc
  | .frameLoad => .frameLoad b a
  | .frameRead => .frameRead b a
  | .statsRead => .statsRead a

/-- Why a request is illegal (R105), in the order of R107. -/
inductive IllegalReason where
  /-- R105(a). -/
  | reservedOpcode (op : BitVec 4)
  /-- R105(b). -/
  | reservedBits
  /-- R105(c). -/
  | unusedOperand
  /-- The bytes given are not the eight of one request word (R100: a decoder reads exactly 64 bits; log
  entry 18). -/
  | notOneWord
  deriving DecidableEq, Repr

/-- A field that R102 marks `0` is not zero (R105(c)). -/
def unusedOperandSet (o : Opcode) (a : OperandA) (b : FrameNo) : Bool :=
  (!usesA o && a != 0) || (!usesB o && b != 0)

/-- The decoder: the legality checks of R107, items 1 to 3, in their order. Ranges, item 4, are checked
where the command's operands are read (Machine/Operands.lean), since they depend on the configuration. -/
def decodeWord (w : Word64) : Except IllegalReason Instr :=
  match opcodeOf (fieldOp w) with
  | none => .error (.reservedOpcode (fieldOp w))
  | some o =>
    if fieldRsv w ≠ 0 then .error .reservedBits
    else if unusedOperandSet o (fieldA w) (fieldB w) then .error .unusedOperand
    else .ok (buildInstr o (fieldA w) (fieldB w))

/-- The one outcome of decoding a word under a configuration (R108). -/
inductive Verdict where
  | illegalCommand (r : IllegalReason)
  | outOfRange (i : Instr)
  | command (i : Instr)
  deriving DecidableEq, Repr

/-- R108: an IllegalCommand, an OutOfRange, or one command with in-range operands. -/
def classify (c : Config) (w : Word64) : Verdict :=
  match decodeWord w with
  | .error r => .illegalCommand r
  | .ok i => if wellFormed c i then .command i else .outOfRange i

/-- The opcode of a command. -/
def Instr.opcode : Instr → Opcode
  | .translate _ => .translate
  | .decode _ => .decode
  | .tlbLookup _ => .tlbLookup
  | .tlbInsert _ _ => .tlbInsert
  | .tlbRead _ => .tlbRead
  | .ptLookup _ => .ptLookup
  | .ptInsert _ _ => .ptInsert
  | .frameAlloc => .frameAlloc
  | .frameLoad _ _ => .frameLoad
  | .frameRead _ _ => .frameRead
  | .statsRead _ => .statsRead

/-- The value of `OP` for an opcode (R103). -/
def opcodeBits : Opcode → BitVec 4
  | .translate => 0x1
  | .decode => 0x2
  | .tlbLookup => 0x3
  | .tlbInsert => 0x4
  | .tlbRead => 0x5
  | .ptLookup => 0x6
  | .ptInsert => 0x7
  | .frameAlloc => 0x8
  | .frameLoad => 0x9
  | .frameRead => 0xA
  | .statsRead => 0xB

/-- What a command puts in field `A` (R102, R116). -/
def Instr.operandA : Instr → OperandA
  | .translate la => la
  | .decode la => la
  | .tlbLookup page => page
  | .tlbInsert page _ => page
  | .tlbRead index => index
  | .ptLookup page => page
  | .ptInsert page _ => page
  | .frameAlloc => 0
  | .frameLoad _ page => page
  | .frameRead _ offset => offset
  | .statsRead sel => sel

/-- What a command puts in field `B` (R102, R116). -/
def Instr.operandB : Instr → FrameNo
  | .tlbInsert _ frame => frame
  | .ptInsert _ frame => frame
  | .frameLoad frame _ => frame
  | .frameRead frame _ => frame
  | .translate _ | .decode _ | .tlbLookup _ | .tlbRead _ | .ptLookup _ | .frameAlloc | .statsRead _ => 0

/-- The encoder: the request word of a command, with every other field zero (R116). -/
def encode (i : Instr) : Word64 :=
  opcodeBits i.opcode ++ (0 : BitVec 12) ++ i.operandB ++ i.operandA

/-- The `mask` column of spec/opcode_table.json (R108). -/
def opcodeMask : Opcode → Word64
  | .translate | .decode | .tlbLookup | .tlbRead | .ptLookup | .statsRead => 0xFFFFFFFF00000000
  | .tlbInsert | .ptInsert | .frameLoad | .frameRead => 0xFFFF000000000000
  | .frameAlloc => 0xFFFFFFFFFFFFFFFF

/-- The `match` column of spec/opcode_table.json (R108). -/
def opcodePattern : Opcode → Word64
  | .translate => 0x1000000000000000
  | .decode => 0x2000000000000000
  | .tlbLookup => 0x3000000000000000
  | .tlbInsert => 0x4000000000000000
  | .tlbRead => 0x5000000000000000
  | .ptLookup => 0x6000000000000000
  | .ptInsert => 0x7000000000000000
  | .frameAlloc => 0x8000000000000000
  | .frameLoad => 0x9000000000000000
  | .frameRead => 0xA000000000000000
  | .statsRead => 0xB000000000000000

/-- A word as a host that sends bytes sends it: byte 0 holds bits 7:0 (R79). -/
def bytesOfWord (w : Word64) : List Byte :=
  (List.range 8).map fun k => w.extractLsb' (8 * k) 8

/-- The word that bytes sent little-endian make (R79). -/
def wordOfBytes : List Byte → Nat
  | [] => 0
  | b :: bs => b.toNat + 256 * wordOfBytes bs

/-- The decoder on bytes, total: exactly eight of them make a request word (R79, R100). -/
def decodeBytes (bs : List Byte) : Except IllegalReason Instr :=
  if bs.length = 8 then decodeWord (BitVec.ofNat 64 (wordOfBytes bs)) else .error .notOneWord

/-- The request word whose low `nbits` bits are those of `w` and whose other bits are zero. -/
def tableRequest (nbits w : Nat) : Word64 := BitVec.ofNat 64 (w % 2 ^ nbits)

/-- The command the decoder reads from a request whose bits are `w`, numbered as spec/opcode_table.json
numbers them. -/
def decodeTableWord (nbits w : Nat) : Option Instr :=
  match decodeWord (tableRequest nbits w) with
  | .ok i => some i
  | .error _ => none

end Sys2Proof
end

