-- ==== Sys2Proof/Machine/Flags.lean ====
section
/-! DEFINITION. The response word (30_encoding.md R110 to R112): its status, its flags HIT, FAULT and EVICT,
its results, and their widening. XB keeps no flag between commands (10_state.md R32): these are all. -/
namespace Sys2Proof.Machine
open Sys2Proof

/-- The contents of an `OK` response (R110, R112). A flag or result not given is 0. -/
structure Reply where
  hit : Bool := false
  fault : Bool := false
  evict : Bool := false
  res1 : BitVec 16 := 0
  res0 : BitVec 32 := 0
  deriving DecidableEq, Repr

/-- The `STATUS` code of an error (R111). -/
def statusCode : XbError → BitVec 3
  | .illegalCommand => 1
  | .outOfRange => 2
  | .storeReadError => 3

/-- The response word with status `OK` (R110): STATUS, HIT, FAULT, EVICT, ten zeros, RES1, RES0. -/
def okWord (r : Reply) : Word64 :=
  (0 : BitVec 3) ++ BitVec.ofBool r.hit ++ BitVec.ofBool r.fault ++ BitVec.ofBool r.evict ++
    (0 : BitVec 10) ++ r.res1 ++ r.res0

/-- The response word of an error: its status and 61 zeros (60_exceptions.md R301, R111). -/
def errorWord (e : XbError) : Word64 := statusCode e ++ (0 : BitVec 61)

/-- `sext_16` of a byte (R12, R112): the byte read as a two's-complement integer (log entry 12). -/
def sext16 (v : Byte) : BitVec 16 := v.signExtend 16

/-- `zext_32` of a value (R12). A value of more than 32 bits is a free value (log entry 8). -/
def res0OfNat (v : Nat) : BitVec 32 := if v < 2 ^ 32 then BitVec.ofNat 32 v else Config.wideRes0 v

/-- A value placed in the 16 bits of `RES1` (R112). A value of more than 16 bits is a free value
(log entry 9). -/
def res1OfNat (v : Nat) : BitVec 16 := if v < 2 ^ 16 then BitVec.ofNat 16 v else Config.wideRes1 v

/-- `sat(x)` (45_stats.md R271). -/
def sat (c : Config) (x : Nat) : Nat := min x c.cntMax

/-- Field `STATUS` of a response word (R110). -/
def respStatus (r : Word64) : BitVec 3 := r.extractLsb' 61 3
/-- Field `HIT` (R110). -/
def respHit (r : Word64) : Bool := r.getLsbD 60
/-- Field `FAULT` (R110). -/
def respFault (r : Word64) : Bool := r.getLsbD 59
/-- Field `EVICT` (R110). -/
def respEvict (r : Word64) : Bool := r.getLsbD 58
/-- Field `RRSV` (R110). -/
def respRrsv (r : Word64) : BitVec 10 := r.extractLsb' 48 10
/-- Field `RES1` (R110). -/
def respRes1 (r : Word64) : BitVec 16 := r.extractLsb' 32 16
/-- Field `RES0` (R110). -/
def respRes0 (r : Word64) : BitVec 32 := r.extractLsb' 0 32

end Sys2Proof.Machine
end

