-- ==== Sys2Proof/Machine/Ops.lean ====
section
/-! DEFINITION. The primitives of XB: the address decomposer, the TLB, the page table, the frame store, the
backing-store read, the frame allocator, the counters, and how a command ends (with a response, or
by raising an error, XB's only exception). -/
namespace Sys2Proof.Machine
open Sys2Proof

/-! ### Address decomposer -/

/-- `Decode(la)` (40_address_codec.md R140): page and offset as bit fields of the logical address. -/
def decompose (c : Config) (la : OperandA) : Nat × Nat :=
  ((la.extractLsb' c.offsetBits c.pnBits).toNat, (la.extractLsb' 0 c.offsetBits).toNat)

/-! ### TLB -/

/-- `TlbLookup(p)` (41_tlb.md R150). Where the state holds a page twice, which no run reaches (R36), the
oldest entry answers (log entry 10). -/
def tlbLookup : List TlbEntry → Nat → Option FrameNo
  | [], _ => none
  | e :: t, p => if e.page = p then some e.frame else tlbLookup t p

/-- What `TlbInsert` leaves and returns (R152 to R154); `present` is `existing.isSome`. -/
structure TlbInsertion where
  tlb : List TlbEntry
  existing : Option FrameNo
  evicted : Option TlbEntry
  deriving DecidableEq, Repr

/-- `TlbInsert(p, f)`: a present page is a no-op (R152), a free slot is filled (R153), a full TLB loses its
oldest entry (R154). -/
def tlbInsert (cap : Nat) (tlb : List TlbEntry) (p : Nat) (f : FrameNo) : TlbInsertion :=
  match tlbLookup tlb p with
  | some g => ⟨tlb, some g, none⟩
  | none =>
    if tlb.length < cap then ⟨tlb ++ [⟨p, f⟩], none, none⟩
    else ⟨tlb.tail ++ [⟨p, f⟩], none, tlb.head?⟩

/-- `TlbInvalidateFrame(f)` (R155): the entries that name another frame, in their order. -/
def tlbInvalidateFrame (tlb : List TlbEntry) (f : FrameNo) : List TlbEntry :=
  tlb.filter fun e => e.frame != f

/-! ### Page table -/

/-- `PtLookup(p)` (42_page_table.md R180). -/
def ptLookup : PageTable → Nat → Option FrameNo
  | [], _ => none
  | (q, g) :: t, p => if q = p then some g else ptLookup t p

/-- `pt[p] <- Some f` (R181), in the place that keeps the pages rising. -/
def ptSet : PageTable → Nat → FrameNo → PageTable
  | [], p, f => [(p, f)]
  | (q, g) :: t, p, f =>
    if p < q then (p, f) :: (q, g) :: t
    else if p = q then (p, f) :: t
    else (q, g) :: ptSet t p f

/-- `PtInsert(p, f)` (R181): the new page table and the mapping it replaced. -/
def ptInsert (pt : PageTable) (p : Nat) (f : FrameNo) : PageTable × Option FrameNo :=
  (ptSet pt p f, ptLookup pt p)

/-- `PtInvalidateFrame(f)` (R182). -/
def ptInvalidateFrame (pt : PageTable) (f : FrameNo) : PageTable :=
  pt.filter fun e => e.2 != f

/-! ### Memory: the frame store and the backing store -/

/-- The byte written at a physical address since reset, if any. -/
def Memory.get? : Memory → Nat → Option Byte
  | [], _ => none
  | (a, b) :: m, x => if a = x then some b else Memory.get? m x

/-- Bytes as cells from an address on. -/
def Memory.cells (base : Nat) : List Byte → Memory
  | [] => []
  | b :: bs => (base, b) :: Memory.cells (base + 1) bs

/-- The memory with the bytes stored from `base` on; every other address keeps its cell. -/
def Memory.writeBlock (m : Memory) (base : Nat) (bytes : List Byte) : Memory :=
  m.filter (fun c => c.1 < base) ++ Memory.cells base bytes ++
    m.filter (fun c => base + bytes.length ≤ c.1)

/-- The canonical form: addresses strictly rising. No cell can equal what an unlisted address reads as:
an unlisted address holds no value, and reads as a value that nothing constrains. -/
abbrev Memory.wf (m : Memory) : Prop := m.Pairwise fun c d => c.1 < d.1

/-- `pa = f * PAGE_SIZE + o` (20_memory.md R71, 44_translate.md R246). -/
def physAddr (c : Config) (f : FrameNo) (o : Nat) : Nat := f.toNat * c.pageSize + o

/-- The byte at a physical address (00_scope.md R14, 20_memory.md R70(b)): what was written there since
reset, and before any write the draw of `FRAME_INIT` (10_state.md R44). -/
def memRead (s : State) (pa : Nat) : Byte :=
  (Memory.get? s.frame pa).getD
    (Config.frameInit s.draw (pa / s.cfg.pageSize) (pa % s.cfg.pageSize))

/-- `FrameRead(f, o)` (20_memory.md R72). -/
def frameRead (s : State) (f : FrameNo) (o : Nat) : Except XbError Byte :=
  if s.cfg.frameLimit ≤ f.toNat ∨ s.cfg.pageSize ≤ o then .error .outOfRange
  else .ok (memRead s (physAddr s.cfg f o))

/-- `FrameWrite(f, bytes)` (20_memory.md R73). -/
def frameWrite (s : State) (f : FrameNo) (bytes : List Byte) : State :=
  { s with frame := Memory.writeBlock s.frame (physAddr s.cfg f 0) bytes }

/-- The bytes of backing-store page `p` (20_memory.md R79). -/
def storePage (c : Config) (p : Nat) : List Byte := (c.store.drop (p * c.pageSize)).take c.pageSize

/-- `StoreRead(p)` (20_memory.md R77). -/
def storeRead (c : Config) (p : Nat) : Except XbError (List Byte) :=
  if c.storeLen < (p + 1) * c.pageSize then .error .storeReadError else .ok (storePage c p)

/-! ### Frame allocator -/

/-- `FrameShootdown(f)` (43_frames.md R204). -/
def frameShootdown (s : State) (f : FrameNo) : State :=
  { s with pt := ptInvalidateFrame s.pt f, tlb := tlbInvalidateFrame s.tlb f }

/-- What `FrameAlloc` leaves and returns (R200). -/
structure FrameAllocation where
  st : State
  frame : FrameNo
  reclaimed : Bool
  deriving DecidableEq, Repr

/-- `FrameAlloc()`: the free path while a frame is free (R201), else the reclaim path (R203). -/
def frameAlloc (s : State) : FrameAllocation :=
  if s.freeNext.toNat < s.cfg.frameLimit then
    ⟨{ s with freeNext := s.freeNext + 1 }, s.freeNext, false⟩
  else
    ⟨frameShootdown { s with victim := BitVec.ofNat 16 ((s.victim.toNat + 1) % s.cfg.frameLimit) }
      s.victim, s.victim, true⟩

/-! ### Counters and status registers -/

/-- The counters after a completed TRANSLATE (44_translate.md R244). -/
def countLookup (s : State) (hit fault : Bool) : State :=
  { s with
    hits := sat s.cfg (s.hits + hit.toNat)
    faults := sat s.cfg (s.faults + fault.toNat)
    lookups := sat s.cfg (s.lookups + 1) }

/-- The status register a selector names (10_state.md R46, 45_stats.md R273); selectors above 5 are refused
before this is asked. -/
def statusRegister (s : State) : Nat → Nat
  | 0 => s.hits
  | 1 => s.faults
  | 2 => s.lookups
  | 3 => s.tlb.length
  | 4 => s.freeNext.toNat
  | _ => s.victim.toNat

/-! ### How a command ends -/

/-- The state with a response word given (R110). -/
def answer (s : State) (w : Word64) : State := { s with response := some w }

/-- Taking an error, XB's one exception (00_scope.md R15, 60_exceptions.md R301, R303, R308): the response holds
the status and zeros, and the state is as before the command. Nothing is saved, no mode changes, no
control is transferred, and there is nothing to return from (R309). -/
def raise (e : XbError) (s : State) : State := answer s (errorWord e)

/-- The end of a command: its tentative state is committed with its `OK` response, or its error is raised
against the state before it (00_scope.md R15). -/
def complete (s : State) (r : Except XbError (State × Reply)) : Host.Outcome State Fault Refusal :=
  match r with
  | .ok (t, reply) => .next (answer t (okWord reply))
  | .error e => .next (raise e s)

/-- Reset between two commands (70_reset_and_hazards.md R340 to R343): the state of R340 under the same
configuration and store, with a fresh draw of the frame contents (log entry 4); what the host does next is
kept (log entry 14). -/
def applyReset (s : State) : State :=
  { State.boot s.cfg with draw := s.draw + 1, inputs := s.inputs }

end Sys2Proof.Machine
end

