-- ==== Sys2Proof/Machine/Codec.lean ====
section
/-! DEFINITION. DECODE, the address decomposer by itself (40_address_codec.md R143). -/
namespace Sys2Proof.Machine
open Sys2Proof

/-- DECODE `la` (R143): page in `RES0`, offset in `RES1`. -/
def execDecode (la : OperandA) (s : State) : Host.Outcome State Fault Refusal :=
  complete s (.ok (s,
    { res0 := res0OfNat (decompose s.cfg la).1, res1 := res1OfNat (decompose s.cfg la).2 }))

end Sys2Proof.Machine
end

