-- ==== Sys2Proof/Machine/Frames.lean ====
section
/-! DEFINITION. The frame commands (43_frames.md R210, R212, R214). -/
namespace Sys2Proof.Machine
open Sys2Proof

/-- FRAME_ALLOC (R210). The frame's bytes are not written. -/
def execFrameAlloc (s : State) : Host.Outcome State Fault Refusal :=
  complete s (.ok ((frameAlloc s).st,
    { evict := (frameAlloc s).reclaimed, res0 := res0OfNat (frameAlloc s).frame.toNat }))

/-- FRAME_LOAD `frame, page` (R212). -/
def execFrameLoad (frame : FrameNo) (page : OperandA) (s : State) : Host.Outcome State Fault Refusal :=
  complete s do
    let p ← pageOperand s.cfg page
    let f ← frameOperand s.cfg frame
    let bytes ← storeRead s.cfg p
    .ok (frameWrite s f bytes, {})

/-- FRAME_READ `frame, offset` (R214). -/
def execFrameRead (frame : FrameNo) (offset : OperandA) (s : State) : Host.Outcome State Fault Refusal :=
  complete s do
    let o ← offsetOperand s.cfg offset
    let f ← frameOperand s.cfg frame
    let v ← frameRead s f o
    .ok (s, { res1 := sext16 v })

end Sys2Proof.Machine
end

