-- ==== Sys2Proof/Machine/PageTable.lean ====
section
/-! DEFINITION. The page-table commands (42_page_table.md R190, R191). -/
namespace Sys2Proof.Machine
open Sys2Proof

/-- PT_LOOKUP `page` (R190). -/
def execPtLookup (page : OperandA) (s : State) : Host.Outcome State Fault Refusal :=
  complete s do
    let p ← pageOperand s.cfg page
    match ptLookup s.pt p with
    | some f => .ok (s, { hit := true, res0 := res0OfNat f.toNat })
    | none => .ok (s, {})

/-- PT_INSERT `page, frame` (R191). -/
def execPtInsert (page : OperandA) (frame : FrameNo) (s : State) : Host.Outcome State Fault Refusal :=
  complete s do
    let p ← pageOperand s.cfg page
    let f ← frameOperand s.cfg frame
    let r := ptInsert s.pt p f
    match r.2 with
    | some g => .ok ({ s with pt := r.1 }, { hit := true, res0 := res0OfNat g.toNat })
    | none => .ok ({ s with pt := r.1 }, {})

end Sys2Proof.Machine
end

