-- ==== Sys2Proof/Machine/Stats.lean ====
section
/-! DEFINITION. STATS_READ (45_stats.md R273). -/
namespace Sys2Proof.Machine
open Sys2Proof

/-- STATS_READ `sel` (R273). Reading changes nothing (R272). -/
def execStatsRead (sel : OperandA) (s : State) : Host.Outcome State Fault Refusal :=
  complete s do
    let i ← selectorOperand sel
    .ok (s, { res0 := res0OfNat (statusRegister s i) })

end Sys2Proof.Machine
end

