-- ==== Sys2Proof/Machine/Tlb.lean ====
section
/-! DEFINITION. The TLB commands (41_tlb.md R160 to R163). -/
namespace Sys2Proof.Machine
open Sys2Proof

/-- TLB_LOOKUP `page` (R160). -/
def execTlbLookup (page : OperandA) (s : State) : Host.Outcome State Fault Refusal :=
  complete s do
    let p ← pageOperand s.cfg page
    match tlbLookup s.tlb p with
    | some f => .ok (s, { hit := true, res0 := res0OfNat f.toNat })
    | none => .ok (s, {})

/-- The contents of TLB_INSERT's response (R161). -/
def tlbInsertReply (r : TlbInsertion) : Reply where
  hit := r.existing.isSome
  res0 := match r.existing with
    | some g => res0OfNat g.toNat
    | none => 0
  evict := r.evicted.isSome
  res1 := match r.evicted with
    | some e => res1OfNat e.page
    | none => 0

/-- TLB_INSERT `page, frame` (R161). -/
def execTlbInsert (page : OperandA) (frame : FrameNo) (s : State) : Host.Outcome State Fault Refusal :=
  complete s do
    let p ← pageOperand s.cfg page
    let f ← frameOperand s.cfg frame
    let r := tlbInsert s.cfg.tlbCap s.tlb p f
    .ok ({ s with tlb := r.tlb }, tlbInsertReply r)

/-- TLB_READ `index` (R163). -/
def execTlbRead (index : OperandA) (s : State) : Host.Outcome State Fault Refusal :=
  complete s do
    let i ← slotOperand s.cfg index
    match s.tlb[i]? with
    | some e => .ok (s, { hit := true, res0 := res0OfNat e.page, res1 := e.frame })
    | none => .ok (s, {})

end Sys2Proof.Machine
end

