-- ==== Sys2Proof/Machine/Translate.lean ====
section
/-! DEFINITION. TRANSLATE and the miss handler (44_translate.md R240 to R248). -/
namespace Sys2Proof.Machine
open Sys2Proof

/-- What the state machine of R240 has settled before the byte is read: the tentative state, the frame,
and the three flags. -/
structure Resolution where
  st : State
  frame : FrameNo
  hit : Bool
  fault : Bool
  evict : Bool
  deriving DecidableEq, Repr

/-- The page-fault path (R243), its steps in the order of R243 and 90_conflicts.md C8. -/
def resolveFault (s : State) (p : Nat) : Except XbError Resolution := do
  let bytes ← storeRead s.cfg p
  let a := frameAlloc s
  let t := frameWrite a.st a.frame bytes
  let t := { t with pt := (ptInsert t.pt p a.frame).1 }
  let t := { t with tlb := (tlbInsert t.cfg.tlbCap t.tlb p a.frame).tlb }
  .ok ⟨t, a.frame, false, true, a.reclaimed⟩

/-- The three paths: TLB hit (R241), TLB miss with page-table hit (R242), page fault (R243). -/
def resolve (s : State) (p : Nat) : Except XbError Resolution :=
  match tlbLookup s.tlb p with
  | some f => .ok ⟨s, f, true, false, false⟩
  | none =>
    match ptLookup s.pt p with
    | some f =>
      .ok ⟨{ s with tlb := (tlbInsert s.cfg.tlbCap s.tlb p f).tlb }, f, false, false, false⟩
    | none => resolveFault s p

/-- TRANSLATE `la` (R247). -/
def execTranslate (la : OperandA) (s : State) : Host.Outcome State Fault Refusal :=
  complete s do
    let r ← resolve s (decompose s.cfg la).1
    let v ← frameRead r.st r.frame (decompose s.cfg la).2
    .ok (countLookup r.st r.hit r.fault,
      { hit := r.hit, fault := r.fault, evict := r.evict,
        res0 := res0OfNat (physAddr s.cfg r.frame (decompose s.cfg la).2), res1 := sext16 v })

end Sys2Proof.Machine
end

