-- ==== Sys2Proof/Machine/Dispatch.lean ====
section
/-! DEFINITION. One arm per command of spec/opcode_table.json. -/
namespace Sys2Proof.Machine
open Sys2Proof

/-- What a command does (R15, R16): its meaning, committed or raised. -/
def exec (i : Instr) (s : State) : Host.Outcome State Fault Refusal :=
  match i with
  | .translate la => Sys2Proof.Machine.execTranslate la s
  | .decode la => Sys2Proof.Machine.execDecode la s
  | .tlbLookup page => Sys2Proof.Machine.execTlbLookup page s
  | .tlbInsert page frame => Sys2Proof.Machine.execTlbInsert page frame s
  | .tlbRead index => Sys2Proof.Machine.execTlbRead index s
  | .ptLookup page => Sys2Proof.Machine.execPtLookup page s
  | .ptInsert page frame => Sys2Proof.Machine.execPtInsert page frame s
  | .frameAlloc => Sys2Proof.Machine.execFrameAlloc s
  | .frameLoad frame page => Sys2Proof.Machine.execFrameLoad frame page s
  | .frameRead frame offset => Sys2Proof.Machine.execFrameRead frame offset s
  | .statsRead sel => Sys2Proof.Machine.execStatsRead sel s

end Sys2Proof.Machine
end

