-- ==== Sys2Proof/Machine/Port.lean ====
section
/-! DEFINITION. The request port: how XB takes what the host does next (10_state.md R31, 20_memory.md R90). -/
namespace Sys2Proof.Machine
open Sys2Proof

/-- One request word answered: an illegal one by its error (30_encoding.md R105), a legal one by its
command. -/
def answerRequest (w : Word64) (s : State) : Host.Outcome State Fault Refusal :=
  match decodeWord w with
  | .ok i => exec i s
  | .error _ => .next (raise .illegalCommand s)

/-- XB takes the host's next input and completes it (20_memory.md R90). With nothing to take it holds its
state (60_exceptions.md R326, log entry 11). A request sent while another is outstanding gets no step (R351, log entry 5). -/
def serve (s : State) : Host.Outcome State Fault Refusal :=
  match s.inputs with
  | [] => .next s
  | .command w :: rest => answerRequest w { s with inputs := rest }
  | .commandWhileOutstanding _ :: _ => .fault .requestWhileOutstanding
  | .reset :: rest => .next (applyReset { s with inputs := rest })

/-- The host is about to send the request word `w`, before everything it does next. -/
def sendNext (s : State) (w : Word64) : State := { s with inputs := .command w :: s.inputs }

end Sys2Proof.Machine
end

