-- ==== Sys2Proof/Machine/Step.lean ====
section
/-! DEFINITION. One step of XB. -/
namespace Sys2Proof.Machine
open Sys2Proof

/-- One step. For an ill-formed configuration no XB exists and no step is defined (00_scope.md R10). -/
def step (s : State) : Host.Outcome State Fault Refusal :=
  if s.cfg.WellFormed then serve s else .refused .badConfiguration

/-- The state with the request word of `nbits` bits `w` as what the host sends next (log entry 2). -/
def State.withFetchWord (s : State) (nbits w : Nat) : State := sendNext s (tableRequest nbits w)

end Sys2Proof.Machine
end

