-- ==== Sys2Proof/Machine/Assembler.lean ====
section
/-! DEFINITION. The spec's assembly language (30_encoding.md R116, R117), on lines given as characters. What R116 does
not say (blanks, empty lines, the case of hexadecimal digits) is in log entry 15. -/
namespace Sys2Proof.Machine
open Sys2Proof

/-- Why a line does not assemble. -/
inductive AsmError where
  | unknownMnemonic
  | operandCount
  | badNumber
  /-- An operand too wide for its field (R116). -/
  | operandTooWide
  deriving DecidableEq, Repr

/-- A blank: a space or a tab. -/
def isBlank (c : Char) : Bool := c == ' ' || c == '\t'

/-- The text without the blanks around it. -/
def trimBlanks (cs : List Char) : List Char :=
  ((cs.dropWhile isBlank).reverse.dropWhile isBlank).reverse

/-- The text before a comment, which starts with `;` (R116). -/
def beforeComment (cs : List Char) : List Char := cs.takeWhile (· != ';')

/-- The pieces between commas; no text is no piece. -/
def splitCommas : List Char → List (List Char)
  | [] => []
  | c :: cs =>
    if c == ',' then [] :: (if cs.isEmpty then [[]] else splitCommas cs)
    else match splitCommas cs with
      | [] => [[c]]
      | p :: ps => (c :: p) :: ps

/-- The value of a digit below 16. -/
def digitValue (c : Char) : Option Nat :=
  if '0'.toNat ≤ c.toNat && c.toNat ≤ '9'.toNat then some (c.toNat - '0'.toNat)
  else if 'a'.toNat ≤ c.toNat && c.toNat ≤ 'f'.toNat then some (c.toNat - 'a'.toNat + 10)
  else if 'A'.toNat ≤ c.toNat && c.toNat ≤ 'F'.toNat then some (c.toNat - 'A'.toNat + 10)
  else none

/-- Digits in a base, appended to the value read so far. -/
def readDigits (base acc : Nat) : List Char → Option Nat
  | [] => some acc
  | c :: cs =>
    match digitValue c with
    | some d => if d < base then readDigits base (acc * base + d) cs else none
    | none => none

/-- A number: decimal, or hexadecimal with a `0x` prefix (R116). -/
def readNumber : List Char → Option Nat
  | [] => none
  | '0' :: 'x' :: c :: cs => readDigits 16 0 (c :: cs)
  | cs => readDigits 10 0 cs

/-- The numbers of an operand list. -/
def readNumbers : List (List Char) → Except AsmError (List Nat)
  | [] => .ok []
  | p :: ps =>
    match readNumber (trimBlanks p) with
    | none => .error .badNumber
    | some n =>
      match readNumbers ps with
      | .ok ns => .ok (n :: ns)
      | .error e => .error e

/-- A command whose operands fit their fields, as a word (R116: an operand too wide is an error, never
truncated). -/
def assembleFields (o : Opcode) (a b : Nat) : Except AsmError Word64 :=
  if 2 ^ 32 ≤ a ∨ 2 ^ 16 ≤ b then .error .operandTooWide
  else .ok (encode (buildInstr o (BitVec.ofNat 32 a) (BitVec.ofNat 16 b)))

/-- The operand order of each command (R116). -/
def assembleCommand (o : Opcode) (ns : List Nat) : Except AsmError Word64 :=
  match o, ns with
  | .translate, [la] => assembleFields .translate la 0
  | .decode, [la] => assembleFields .decode la 0
  | .tlbLookup, [page] => assembleFields .tlbLookup page 0
  | .tlbInsert, [page, frame] => assembleFields .tlbInsert page frame
  | .tlbRead, [index] => assembleFields .tlbRead index 0
  | .ptLookup, [page] => assembleFields .ptLookup page 0
  | .ptInsert, [page, frame] => assembleFields .ptInsert page frame
  | .frameAlloc, [] => assembleFields .frameAlloc 0 0
  | .frameLoad, [frame, page] => assembleFields .frameLoad page frame
  | .frameRead, [frame, offset] => assembleFields .frameRead offset frame
  | .statsRead, [sel] => assembleFields .statsRead sel 0
  | _, _ => .error .operandCount

/-- The mnemonics (R116). -/
def mnemonicTable : List (List Char × Opcode) :=
  [("TRANSLATE".toList, .translate), ("DECODE".toList, .decode), ("TLB_LOOKUP".toList, .tlbLookup),
   ("TLB_INSERT".toList, .tlbInsert), ("TLB_READ".toList, .tlbRead), ("PT_LOOKUP".toList, .ptLookup),
   ("PT_INSERT".toList, .ptInsert), ("FRAME_ALLOC".toList, .frameAlloc), ("FRAME_LOAD".toList, .frameLoad),
   ("FRAME_READ".toList, .frameRead), ("STATS_READ".toList, .statsRead)]

/-- The pseudo-instructions, each with the selector of the STATS_READ it stands for (R117). -/
def pseudoTable : List (List Char × Nat) :=
  [("STATS_HITS".toList, 0), ("STATS_FAULTS".toList, 1), ("STATS_LOOKUPS".toList, 2),
   ("STATS_TLBCOUNT".toList, 3), ("STATS_FREENEXT".toList, 4), ("STATS_VICTIM".toList, 5)]

/-- One line: no word for a line that holds no command, else the word of its command (R116). -/
def assembleLine (line : List Char) : Except AsmError (Option Word64) :=
  let text := trimBlanks (beforeComment line)
  if text.isEmpty then .ok none
  else
    let name := text.takeWhile fun c => !isBlank c
    match readNumbers (splitCommas (trimBlanks (text.dropWhile fun c => !isBlank c))) with
    | .error e => .error e
    | .ok ns =>
      match mnemonicTable.lookup name with
      | some o => (assembleCommand o ns).map some
      | none =>
        match pseudoTable.lookup name with
        | some sel => if ns.isEmpty then (assembleCommand .statsRead [sel]).map some else .error .operandCount
        | none => .error .unknownMnemonic

/-- A program: its lines in order (R16, R116). -/
def assemble : List (List Char) → Except AsmError (List Word64)
  | [] => .ok []
  | l :: ls =>
    match assembleLine l, assemble ls with
    | .ok (some w), .ok ws => .ok (w :: ws)
    | .ok none, .ok ws => .ok ws
    | .error e, _ => .error e
    | .ok _, .error e => .error e

end Sys2Proof.Machine
end

