-- ==== Sys2Proof/Machine/HostSide.lean ====
section
/-! DEFINITION. What the spec puts on the host's side of the interface: reading a response word, comparing
it with an expected result, and the rates (60_exceptions.md R306, 45_stats.md R277). No step uses it (log
entry 21). -/
namespace Sys2Proof.Machine
open Sys2Proof

/-- A response word, read. -/
inductive Response where
  | ok (r : Reply)
  | error (e : XbError)
  deriving DecidableEq, Repr

/-- The host reads a response word (30_encoding.md R110, R111). A reserved status code or a reserved bit that is set
is refused (U6 of 93_implementation_defined.md). -/
def readResponse (r : Word64) : Option Response :=
  if respRrsv r ≠ 0 then none
  else match (respStatus r).toNat with
    | 0 => some (.ok
        { hit := respHit r, fault := respFault r, evict := respEvict r, res1 := respRes1 r, res0 := respRes0 r })
    | 1 => some (.error .illegalCommand)
    | 2 => some (.error .outOfRange)
    | 3 => some (.error .storeReadError)
    | _ => none

/-- The host's validation of a TRANSLATE (60_exceptions.md R306): the computed physical address and the computed
signed byte agree with the expected ones. -/
def validates (r : Reply) (epa : Nat) (ev : Int) : Bool :=
  decide (r.res0.toNat = epa) && decide (r.res1.toInt = ev)

/-- A rate over the host's denominator (45_stats.md R277); with the denominator 0 no rate is defined. -/
def rate (count d : Nat) : Option Rat := if d = 0 then none else some ((count : Rat) / (d : Rat))

end Sys2Proof.Machine
end

