-- ==== Sys2Proof/Safety.lean ====
section
/-! DEFINITION. What counts as a legal state and a coherent one, in the terms the claims use: the legal
ranges of 10_state.md, the invariants of 44_translate.md R250, and the allocation order of 43_frames.md R205. -/
namespace Sys2Proof.Machine
open Sys2Proof

/-- The classes of commands (30_encoding.md R115). -/
inductive CommandClass where
  | translation | pure | maintenance
  deriving DecidableEq, Repr

/-- The class of a command (R115). -/
def commandClass : Instr → CommandClass
  | .translate _ => .translation
  | .decode _ | .statsRead _ => .pure
  | .tlbLookup _ | .tlbInsert _ _ | .tlbRead _ | .ptLookup _ | .ptInsert _ _ | .frameAlloc
  | .frameLoad _ _ | .frameRead _ _ => .maintenance

/-- The four commands that can break the invariants of R250 (R115). -/
def breaksCoherence : Instr → Bool
  | .tlbInsert _ _ | .ptInsert _ _ | .frameAlloc | .frameLoad _ _ => true
  | .translate _ | .decode _ | .tlbLookup _ | .tlbRead _ | .ptLookup _ | .frameRead _ _ | .statsRead _ => false

/-- A host input that cannot break the invariants of R250: reset, or a request word that is illegal or is
none of the four commands that can (R250 speaks of a sequence of commands from reset). -/
def keepsCoherence : HostInput → Bool
  | .command w =>
    match decodeWord w with
    | .ok i => !breaksCoherence i
    | .error _ => true
  | .commandWhileOutstanding _ => true
  | .reset => true

/-- The host does its duty of R351: this input is no request sent while another is outstanding. -/
def hostDuty : HostInput → Bool
  | .command _ | .reset => true
  | .commandWhileOutstanding _ => false

/-- A legal state: the ranges 10_state.md gives every element, and the canonical forms of the model. -/
structure State.Legal (s : State) : Prop where
  /-- R10. -/
  config : s.cfg.WellFormed
  /-- R34. -/
  tlb_pages : ∀ e ∈ s.tlb, e.page < s.cfg.numPages
  /-- R34. -/
  tlb_frames : ∀ e ∈ s.tlb, e.frame.toNat < s.cfg.frameLimit
  /-- R34. -/
  tlb_length : s.tlb.length ≤ s.cfg.tlbCap
  /-- R36. -/
  tlb_unique : (s.tlb.map TlbEntry.page).Nodup
  /-- R38: at most one mapping for a page; the model lists the pages rising. -/
  pt_rising : s.pt.Pairwise fun a b => a.1 < b.1
  /-- R38. -/
  pt_pages : ∀ e ∈ s.pt, e.1 < s.cfg.numPages
  /-- R38. -/
  pt_frames : ∀ e ∈ s.pt, e.2.toNat < s.cfg.frameLimit
  /-- R41. -/
  freeNext_range : s.freeNext.toNat ≤ s.cfg.frameLimit
  /-- R42. -/
  victim_range : s.victim.toNat < s.cfg.frameLimit
  /-- R205. -/
  victim_zero : s.freeNext.toNat < s.cfg.frameLimit → s.victim = 0
  /-- The canonical form of the frame store. -/
  frame_wf : Memory.wf s.frame
  /-- R70(b): only physical addresses are listed. -/
  frame_range : ∀ c ∈ s.frame, c.1 < s.cfg.frameLimit * s.cfg.pageSize
  /-- R45, R271. -/
  hits_range : s.hits ≤ s.cfg.cntMax
  /-- R45, R271. -/
  faults_range : s.faults ≤ s.cfg.cntMax
  /-- R45, R271. -/
  lookups_range : s.lookups ≤ s.cfg.cntMax

/-- The byte of a frame, and of the store, that I3 of R250 makes equal; both are there. -/
def frameHoldsPage (s : State) (f : FrameNo) (p : Nat) : Prop :=
  ∀ o < s.cfg.pageSize, ∃ b, s.cfg.store[p * s.cfg.pageSize + o]? = some b ∧
    Memory.get? s.frame (physAddr s.cfg f o) = some b

/-- The invariants I1 to I5 of R250. -/
structure Coherent (s : State) : Prop where
  /-- (I1). -/
  tlb_agrees : ∀ e ∈ s.tlb, ptLookup s.pt e.page = some e.frame
  /-- (I2), into `[0, FREE_NEXT)`. -/
  frames_allocated : ∀ e ∈ s.pt, e.2.toNat < s.freeNext.toNat
  /-- (I2), no two resident pages share a frame. -/
  frames_distinct : (s.pt.map Prod.snd).Nodup
  /-- (I2), onto `[0, FREE_NEXT)`. -/
  frames_mapped : ∀ f < s.freeNext.toNat, ∃ e ∈ s.pt, e.2.toNat = f
  /-- (I3), with R253: every mapped frame was written when it was mapped. -/
  frames_hold : ∀ e ∈ s.pt, frameHoldsPage s e.2 e.1
  /-- (I4). -/
  tlb_length : s.tlb.length ≤ s.cfg.tlbCap
  /-- (I4). -/
  tlb_unique : (s.tlb.map TlbEntry.page).Nodup
  /-- (I5). -/
  victim_zero : s.freeNext.toNat < s.cfg.frameLimit → s.victim = 0

/-- The allocation-order queue `Q` of R205: every allocated frame, the one allocated longest ago first. -/
def allocQueue (s : State) : List Nat :=
  if s.freeNext.toNat < s.cfg.frameLimit then List.range s.freeNext.toNat
  else List.range' s.victim.toNat (s.cfg.frameLimit - s.victim.toNat) ++ List.range s.victim.toNat

/-- The counters' relation of 45_stats.md R274 while `LOOKUPS` has not saturated. -/
def CountersAgree (s : State) : Prop :=
  s.lookups < s.cfg.cntMax → s.hits + s.faults ≤ s.lookups

/-- The parts of the architectural tuple of R49 agree, with the draw of `FRAME_INIT` that is part of the
frame store's contents. -/
structure SameTuple (s t : State) : Prop where
  tlb : s.tlb = t.tlb
  pt : s.pt = t.pt
  freeNext : s.freeNext = t.freeNext
  victim : s.victim = t.victim
  frame : s.frame = t.frame
  draw : s.draw = t.draw
  hits : s.hits = t.hits
  faults : s.faults = t.faults
  lookups : s.lookups = t.lookups

/-- An update of the TLB, as R156 speaks of sequences of them. -/
inductive TlbUpdate where
  | insert (p : Nat) (f : FrameNo)
  | invalidateFrame (f : FrameNo)
  deriving DecidableEq, Repr

/-- A sequence of TLB updates run in order (R156). -/
def runTlbUpdates (cap : Nat) : List TlbUpdate → List TlbEntry → List TlbEntry
  | [], tlb => tlb
  | .insert p f :: us, tlb => runTlbUpdates cap us (tlbInsert cap tlb p f).tlb
  | .invalidateFrame f :: us, tlb => runTlbUpdates cap us (tlbInvalidateFrame tlb f)

/-- An update of the page table, as R183 speaks of them. -/
inductive PtUpdate where
  | insert (p : Nat) (f : FrameNo)
  | invalidateFrame (f : FrameNo)
  deriving DecidableEq, Repr

/-- A sequence of page-table updates run in order (R183). -/
def runPtUpdates : List PtUpdate → PageTable → PageTable
  | [], pt => pt
  | .insert p f :: us, pt => runPtUpdates us (ptInsert pt p f).1
  | .invalidateFrame f :: us, pt => runPtUpdates us (ptInvalidateFrame pt f)

end Sys2Proof.Machine
end

