-- ==== Sys2Proof/Certificates/Slice0/Obligations.lean ====
section
/-! DEFINITION. The statements for the provers. -/

open Sys2Proof Sys2Proof.Machine

/-! ### Encoding -/

/-- R118: the example encodings, both ways, and the example responses. -/
def Obligations.ExampleWordsMeanWhatTheSpecSays : Prop :=
  (decodeWord 0x1000000000000004 = .ok (.translate 0x0004) ∧ encode (.translate 0x0004) = 0x1000000000000004) ∧
  (decodeWord 0x10000000ABCD0004 = .ok (.translate 0xABCD0004) ∧
    encode (.translate 0xABCD0004) = 0x10000000ABCD0004) ∧
  (decodeWord 0x4000000300000005 = .ok (.tlbInsert 5 3) ∧ encode (.tlbInsert 5 3) = 0x4000000300000005) ∧
  (decodeWord 0xA000000200000010 = .ok (.frameRead 2 0x10) ∧
    encode (.frameRead 2 0x10) = 0xA000000200000010) ∧
  (decodeWord 0x8000000000000000 = .ok .frameAlloc ∧ encode .frameAlloc = 0x8000000000000000) ∧
  (decodeWord 0xB000000000000002 = .ok (.statsRead 2) ∧ encode (.statsRead 2) = 0xB000000000000002) ∧
  okWord { fault := true, res0 := 4, res1 := sext16 4 } = 0x0800000400000004 ∧
  okWord { hit := true, res0 := 4, res1 := sext16 4 } = 0x1000000400000004 ∧
  okWord { fault := true, evict := true, res0 := 0x30, res1 := sext16 0x32 } = 0x0C00003200000030 ∧
  sext16 0x85 = 0xFF85 ∧
  errorWord .illegalCommand = 0x2000000000000000 ∧
  errorWord .outOfRange = 0x4000000000000000 ∧
  errorWord .storeReadError = 0x6000000000000000

/-- Decoding the word of any command gives the command back, for every value of every operand. -/
def Obligations.DecodeOfEncodeIsTheCommand : Prop :=
  ∀ i : Instr, decodeWord (encode i) = .ok i

/-- A legal word is the word of the one command it decodes to: no bit of it is dropped. -/
def Obligations.EncodeOfDecodeIsTheWord : Prop :=
  ∀ (w : Word64) (i : Instr), decodeWord w = .ok i → encode i = w

/-- R108: a word selects a command exactly when it matches the row of the opcode table and the range checks
of its operand fields pass; every other word is illegal or out of range. -/
def Obligations.WordSelectsCommandExactlyByMask : Prop :=
  (∀ (c : Config) (w : Word64) (o : Opcode),
    (∃ i, classify c w = .command i ∧ i.opcode = o) ↔
      (w &&& opcodeMask o = opcodePattern o ∧ wellFormed c (buildInstr o (fieldA w) (fieldB w)) = true)) ∧
  (∀ (c : Config) (w : Word64),
    (∃ r, classify c w = .illegalCommand r) ∨ (∃ i, classify c w = .outOfRange i) ∨
      (∃ i, classify c w = .command i))

/-- R105: a request word is illegal exactly when its opcode is reserved, `RSV` is not zero, or an operand field
its command does not use is not zero; it is then answered ILLEGAL_COMMAND and changes no state. -/
def Obligations.IllegalWordsAreExactlyThoseOfTheRule : Prop :=
  ∀ (w : Word64),
    ((∃ r, decodeWord w = .error r) ↔
      (fieldOp w ∈ ([0x0, 0xC, 0xD, 0xE, 0xF] : List (BitVec 4)) ∨ fieldRsv w ≠ 0 ∨
        (fieldOp w ∈ ([0x1, 0x2, 0x3, 0x5, 0x6, 0x8, 0xB] : List (BitVec 4)) ∧ fieldB w ≠ 0) ∨
        (fieldOp w = 0x8 ∧ fieldA w ≠ 0))) ∧
    (∀ r, decodeWord w = .error r → ∀ s : State,
      answerRequest w s = .next { s with response := some 0x2000000000000000 })

/-- Words sent as bytes are sent little-endian: the decoder on the eight bytes of a word is the decoder on
the word, and byte `k` holds bits `8k+7 : 8k`. -/
def Obligations.BytesCarryTheWordLittleEndian : Prop :=
  ∀ w : Word64, decodeBytes (bytesOfWord w) = decodeWord w ∧
    (∀ k < 8, (bytesOfWord w)[k]? = some (w.extractLsb' (8 * k) 8))

/-- The assembler puts each operand in the field the command gives it, zeros every other field, and refuses an
operand too wide for its field, for each of the eleven commands. -/
def Obligations.AssemblerPlacesOperandsInTheirFields : Prop :=
  ∀ a b : Nat,
    (a < 2 ^ 32 →
      assembleCommand .translate [a] = .ok ((0x1 : BitVec 4) ++ (0 : BitVec 12) ++ (0 : BitVec 16) ++ BitVec.ofNat 32 a) ∧
      assembleCommand .decode [a] = .ok ((0x2 : BitVec 4) ++ (0 : BitVec 12) ++ (0 : BitVec 16) ++ BitVec.ofNat 32 a) ∧
      assembleCommand .tlbLookup [a] = .ok ((0x3 : BitVec 4) ++ (0 : BitVec 12) ++ (0 : BitVec 16) ++ BitVec.ofNat 32 a) ∧
      assembleCommand .tlbRead [a] = .ok ((0x5 : BitVec 4) ++ (0 : BitVec 12) ++ (0 : BitVec 16) ++ BitVec.ofNat 32 a) ∧
      assembleCommand .ptLookup [a] = .ok ((0x6 : BitVec 4) ++ (0 : BitVec 12) ++ (0 : BitVec 16) ++ BitVec.ofNat 32 a) ∧
      assembleCommand .statsRead [a] = .ok ((0xB : BitVec 4) ++ (0 : BitVec 12) ++ (0 : BitVec 16) ++ BitVec.ofNat 32 a)) ∧
    (a < 2 ^ 32 → b < 2 ^ 16 →
      assembleCommand .tlbInsert [a, b] = .ok ((0x4 : BitVec 4) ++ (0 : BitVec 12) ++ BitVec.ofNat 16 b ++ BitVec.ofNat 32 a) ∧
      assembleCommand .ptInsert [a, b] = .ok ((0x7 : BitVec 4) ++ (0 : BitVec 12) ++ BitVec.ofNat 16 b ++ BitVec.ofNat 32 a) ∧
      assembleCommand .frameLoad [b, a] = .ok ((0x9 : BitVec 4) ++ (0 : BitVec 12) ++ BitVec.ofNat 16 b ++ BitVec.ofNat 32 a) ∧
      assembleCommand .frameRead [b, a] = .ok ((0xA : BitVec 4) ++ (0 : BitVec 12) ++ BitVec.ofNat 16 b ++ BitVec.ofNat 32 a)) ∧
    assembleCommand .frameAlloc [] = .ok 0x8000000000000000 ∧
    (2 ^ 32 ≤ a →
      (∀ o ∈ [Opcode.translate, .decode, .tlbLookup, .tlbRead, .ptLookup, .statsRead],
        assembleCommand o [a] = .error .operandTooWide)) ∧
    (2 ^ 32 ≤ a ∨ 2 ^ 16 ≤ b →
      (∀ o ∈ [Opcode.tlbInsert, .ptInsert], assembleCommand o [a, b] = .error .operandTooWide) ∧
      (∀ o ∈ [Opcode.frameLoad, .frameRead], assembleCommand o [b, a] = .error .operandTooWide))

/-- R117: each pseudo-instruction assembles as the STATS_READ it stands for. -/
def Obligations.PseudoInstructionsAreStatsReads : Prop :=
  assembleLine "STATS_HITS".toList = assembleLine "STATS_READ 0".toList ∧
  assembleLine "STATS_FAULTS".toList = assembleLine "STATS_READ 1".toList ∧
  assembleLine "STATS_LOOKUPS".toList = assembleLine "STATS_READ 2".toList ∧
  assembleLine "STATS_TLBCOUNT".toList = assembleLine "STATS_READ 3".toList ∧
  assembleLine "STATS_FREENEXT".toList = assembleLine "STATS_READ 4".toList ∧
  assembleLine "STATS_VICTIM".toList = assembleLine "STATS_READ 5".toList ∧
  (∀ sel < 6, ∀ w, assembleCommand .statsRead [sel] = .ok w →
    decodeWord w = .ok (.statsRead (BitVec.ofNat 32 sel))) ∧
  pseudoTable.length = 6

/-! ### Responses and errors -/

/-- The host reads back exactly what a response says; it refuses a reserved status code and a reserved bit. The
reader is host-side and the model's reading of U6 (log entry 21). -/
def Obligations.ResponseWordsReadBack : Prop :=
  (∀ r : Reply, readResponse (okWord r) = some (.ok r)) ∧
  (∀ e : XbError, readResponse (errorWord e) = some (.error e)) ∧
  (∀ w : Word64, 4 ≤ (respStatus w).toNat ∨ respRrsv w ≠ 0 → readResponse w = none)

/-- Every request word is answered by exactly one response word: its status is 0 to 3, its reserved bits are
zero, and every other bit of an error response is zero. -/
def Obligations.EveryRequestGetsALegalResponse : Prop :=
  ∀ (w : Word64) (s : State), ∃ t r, answerRequest w s = .next t ∧ t.response = some r ∧
    (respStatus r).toNat ≤ 3 ∧ respRrsv r = 0 ∧
    (respStatus r ≠ 0 → r = respStatus r ++ (0 : BitVec 61))

/-- R303: a command that raises an error changes no state. -/
def Obligations.ErrorsChangeNoState : Prop :=
  ∀ (w : Word64) (s t : State) (r : Word64), answerRequest w s = .next t → t.response = some r →
    respStatus r ≠ 0 → t = { s with response := some r }

/-- R106: an operand out of its range is answered OUT_OF_RANGE and changes no state: a page, a frame, an offset,
a slot index, a selector. -/
def Obligations.OutOfRangeOperandsAreAnswered : Prop :=
  ∀ (s : State) (a : OperandA) (f : FrameNo),
    (s.cfg.numPages ≤ a.toNat →
      ∀ i ∈ [Instr.tlbLookup a, .tlbInsert a f, .ptLookup a, .ptInsert a f, .frameLoad f a],
        exec i s = .next { s with response := some 0x4000000000000000 }) ∧
    (s.cfg.frameLimit ≤ f.toNat →
      ∀ i ∈ [Instr.tlbInsert a f, .ptInsert a f, .frameLoad f a, .frameRead f a],
        exec i s = .next { s with response := some 0x4000000000000000 }) ∧
    (s.cfg.pageSize ≤ a.toNat →
      exec (.frameRead f a) s = .next { s with response := some 0x4000000000000000 }) ∧
    (s.cfg.tlbCap ≤ a.toNat →
      exec (.tlbRead a) s = .next { s with response := some 0x4000000000000000 }) ∧
    (5 < a.toNat →
      exec (.statsRead a) s = .next { s with response := some 0x4000000000000000 })

/-- The order of the checks: opcode, then `RSV`, then unused operands, then ranges, then the command. The three
legality checks show in the reason the decoder names; the ranges come before the store read. -/
def Obligations.ChecksRunInOrder : Prop :=
  ∀ (w : Word64) (s : State),
    (opcodeOf (fieldOp w) = none → decodeWord w = .error (.reservedOpcode (fieldOp w))) ∧
    (∀ o, opcodeOf (fieldOp w) = some o →
      (fieldRsv w ≠ 0 → decodeWord w = .error .reservedBits) ∧
      (fieldRsv w = 0 →
        (((usesA o = false ∧ fieldA w ≠ 0) ∨ (usesB o = false ∧ fieldB w ≠ 0)) →
          decodeWord w = .error .unusedOperand) ∧
        ((usesA o = true ∨ fieldA w = 0) → (usesB o = true ∨ fieldB w = 0) →
          decodeWord w = .ok (buildInstr o (fieldA w) (fieldB w)) ∧
          (wellFormed s.cfg (buildInstr o (fieldA w) (fieldB w)) = false →
            answerRequest w s = .next { s with response := some 0x4000000000000000 }) ∧
          (wellFormed s.cfg (buildInstr o (fieldA w) (fieldB w)) = true →
            answerRequest w s = exec (buildInstr o (fieldA w) (fieldB w)) s))))

/-- Which command can answer which error, in a legal state: DECODE and FRAME_ALLOC none, STORE_READ_ERROR only
TRANSLATE and FRAME_LOAD, OUT_OF_RANGE never TRANSLATE, ILLEGAL_COMMAND no legal word. -/
def Obligations.ErrorsByCommand : Prop :=
  ∀ (i : Instr) (s t : State) (r : Word64), s.Legal → exec i s = .next t → t.response = some r →
    respStatus r ≠ 1 ∧
    (respStatus r = 2 ↔ wellFormed s.cfg i = false) ∧
    (respStatus r = 3 ↔ wellFormed s.cfg i = true ∧
      ((∃ f page, i = .frameLoad f page ∧ s.cfg.storeLen < (page.toNat + 1) * s.cfg.pageSize) ∨
       (∃ la, i = .translate la ∧ (∀ e ∈ s.tlb, e.page ≠ (decompose s.cfg la).1) ∧
          (∀ e ∈ s.pt, e.1 ≠ (decompose s.cfg la).1) ∧
          s.cfg.storeLen < ((decompose s.cfg la).1 + 1) * s.cfg.pageSize)))

/-- XB never stops itself: in every state every command answers a next state, and under a well-formed
configuration every input of a host that keeps its duty gives a next state, an error response included. That
stopping is left to a broken host duty and a bad configuration is the model's reading (log entries 5 and 6). -/
def Obligations.XbNeverStopsItself : Prop :=
  (∀ (i : Instr) (s : State), ∃ t, exec i s = .next t) ∧
  (∀ s : State, s.cfg.WellFormed → (∀ x, s.inputs.head? = some x → hostDuty x = true) →
    ∃ t, step s = .next t)

/-! ### The address decomposer -/

/-- R142: on a valid logical address page and offset are quotient and remainder and give the address back; on
any other only the remainder is right, and the address counts modulo the size of the logical space. -/
def Obligations.DecomposeOfValidAddresses : Prop :=
  ∀ (c : Config) (la : OperandA), c.WellFormed →
    (la.toNat < 2 ^ (c.pnBits + c.offsetBits) →
      (decompose c la).2 = la.toNat % c.pageSize ∧ (decompose c la).1 = la.toNat / c.pageSize ∧
      (decompose c la).1 * c.pageSize + (decompose c la).2 = la.toNat) ∧
    (2 ^ (c.pnBits + c.offsetBits) ≤ la.toNat →
      (decompose c la).2 = la.toNat % c.pageSize ∧ (decompose c la).1 ≠ la.toNat / c.pageSize ∧
      (decompose c la).1 * c.pageSize + (decompose c la).2 ≠ la.toNat ∧
      decompose c la = decompose c (BitVec.ofNat 32 (la.toNat % 2 ^ (c.pnBits + c.offsetBits))))

/-- DECODE completes in every state with the page in `RES0`, the offset in `RES1` and no flag, and changes
nothing. -/
def Obligations.DecodeAnswersPageAndOffset : Prop :=
  ∀ (la : OperandA) (s : State), s.cfg.WellFormed →
    exec (.decode la) s = .next { s with response := some (okWord
      { res0 := BitVec.ofNat 32 (la.toNat / s.cfg.pageSize % s.cfg.numPages)
        res1 := BitVec.ofNat 16 (la.toNat % s.cfg.pageSize) }) }

/-! ### The TLB -/

/-- R156: any sequence of inserts and invalidations keeps the capacity and the uniqueness of pages. -/
def Obligations.TlbUpdatesKeepCapacityAndUniqueness : Prop :=
  ∀ (cap : Nat) (us : List TlbUpdate) (tlb : List TlbEntry), 1 ≤ cap → tlb.length ≤ cap →
    (tlb.map TlbEntry.page).Nodup →
    (runTlbUpdates cap us tlb).length ≤ cap ∧ ((runTlbUpdates cap us tlb).map TlbEntry.page).Nodup

/-- R157: an insert of an absent page into a full TLB removes exactly the oldest entry, and after inserts of
distinct pages into an empty TLB it holds exactly the last `cap` of them, in order. -/
def Obligations.TlbIsFifo : Prop :=
  (∀ (cap : Nat) (e0 : TlbEntry) (rest : List TlbEntry) (p : Nat) (f : FrameNo),
    (e0 :: rest).length = cap → (∀ e ∈ e0 :: rest, e.page ≠ p) →
    tlbInsert cap (e0 :: rest) p f = ⟨rest ++ [⟨p, f⟩], none, some e0⟩) ∧
  (∀ (cap : Nat) (es : List TlbEntry), 1 ≤ cap → (es.map TlbEntry.page).Nodup →
    runTlbUpdates cap (es.map fun e => .insert e.page e.frame) [] = es.drop (es.length - cap))

/-- Invalidating a frame removes every entry that names it and keeps the others in their order. -/
def Obligations.TlbInvalidateKeepsTheRestInOrder : Prop :=
  ∀ (tlb : List TlbEntry) (f : FrameNo),
    (tlbInvalidateFrame tlb f).Sublist tlb ∧
    (∀ e, tlb.count e = (tlbInvalidateFrame tlb f).count e + (if e.frame = f then tlb.count e else 0)) ∧
    (∀ e ∈ tlbInvalidateFrame tlb f, e.frame ≠ f)

/-- TLB_LOOKUP completes: a page in the TLB answers HIT and its frame, an absent one all zeros; nothing else
changes. -/
def Obligations.TlbLookupAnswersTheFrame : Prop :=
  ∀ (page : OperandA) (s : State), s.Legal → page.toNat < s.cfg.numPages →
    (∀ e ∈ s.tlb, e.page = page.toNat →
      exec (.tlbLookup page) s = .next { s with response := some (okWord
        { hit := true, res0 := e.frame.setWidth 32 }) }) ∧
    ((∀ e ∈ s.tlb, e.page ≠ page.toNat) →
      exec (.tlbLookup page) s = .next { s with response := some 0 })

/-- TLB_INSERT completes: a present page changes nothing and answers HIT with the old frame; an absent one is
appended, and when the TLB is full the oldest entry goes and its page is answered with EVICT. With
`PN_BITS > 16` a page that does not fit `RES1` shows as a free value (log entry 9). -/
def Obligations.TlbInsertAnswersAndUpdates : Prop :=
  ∀ (page : OperandA) (f : FrameNo) (s : State), s.Legal → page.toNat < s.cfg.numPages →
    f.toNat < s.cfg.frameLimit →
    (∀ e ∈ s.tlb, e.page = page.toNat →
      exec (.tlbInsert page f) s = .next { s with response := some (okWord
        { hit := true, res0 := e.frame.setWidth 32 }) }) ∧
    ((∀ e ∈ s.tlb, e.page ≠ page.toNat) → s.tlb.length < s.cfg.tlbCap →
      exec (.tlbInsert page f) s =
        .next { s with tlb := s.tlb ++ [⟨page.toNat, f⟩], response := some 0 }) ∧
    (∀ e0 rest, s.tlb = e0 :: rest → (∀ e ∈ s.tlb, e.page ≠ page.toNat) → s.tlb.length = s.cfg.tlbCap →
      exec (.tlbInsert page f) s = .next
        { s with tlb := rest ++ [⟨page.toNat, f⟩],
                 response := some (okWord { evict := true, res1 := res1OfNat e0.page }) } ∧
      (s.cfg.pnBits ≤ 16 → res1OfNat e0.page = BitVec.ofNat 16 e0.page))

/-- TLB_READ completes: an occupied slot answers HIT, its page and its frame, an empty one all zeros; nothing
else changes. -/
def Obligations.TlbReadAnswersTheSlot : Prop :=
  ∀ (index : OperandA) (s : State), s.Legal → index.toNat < s.cfg.tlbCap →
    (∀ e, s.tlb[index.toNat]? = some e →
      exec (.tlbRead index) s = .next { s with response := some (okWord
        { hit := true, res0 := BitVec.ofNat 32 e.page, res1 := e.frame }) }) ∧
    (s.tlb.length ≤ index.toNat → exec (.tlbRead index) s = .next { s with response := some 0 })

/-! ### The page table -/

/-- R183: once a page is mapped to a frame it stays so until the page is mapped again or the frame is
invalidated. -/
def Obligations.PageStaysMapped : Prop :=
  ∀ (pt : PageTable) (p : Nat) (f : FrameNo) (us : List PtUpdate),
    (∀ u ∈ us, (∀ q g, u = .insert q g → q ≠ p) ∧ (∀ g, u = .invalidateFrame g → g ≠ f)) →
    ptLookup (runPtUpdates us (ptInsert pt p f).1) p = some f

/-- PT_LOOKUP completes: a resident page answers HIT and its frame, any other all zeros; nothing else
changes. -/
def Obligations.PtLookupAnswersTheFrame : Prop :=
  ∀ (page : OperandA) (s : State), s.Legal → page.toNat < s.cfg.numPages →
    (∀ f, (page.toNat, f) ∈ s.pt →
      exec (.ptLookup page) s = .next { s with response := some (okWord
        { hit := true, res0 := f.setWidth 32 }) }) ∧
    ((∀ e ∈ s.pt, e.1 ≠ page.toNat) →
      exec (.ptLookup page) s = .next { s with response := some 0 })

/-- PT_INSERT completes: the page maps to the frame, every other page maps as before, and a replaced mapping
answers HIT with the old frame; nothing else changes. -/
def Obligations.PtInsertMapsThePage : Prop :=
  ∀ (page : OperandA) (f : FrameNo) (s : State), s.Legal → page.toNat < s.cfg.numPages →
    f.toNat < s.cfg.frameLimit →
    ∃ pt r, exec (.ptInsert page f) s = .next { s with pt := pt, response := some (okWord r) } ∧
      (∀ q, ptLookup pt q = if q = page.toNat then some f else ptLookup s.pt q) ∧
      (∀ g, (page.toNat, g) ∈ s.pt → r = { hit := true, res0 := g.setWidth 32 }) ∧
      ((∀ e ∈ s.pt, e.1 ≠ page.toNat) → r = {})

/-! ### Frames -/

/-- R77: the store read gives the page byte by byte, or StoreReadError when the store is too short for all of
it. -/
def Obligations.StoreReadGivesThePage : Prop :=
  ∀ (c : Config) (p : Nat),
    (c.storeLen < (p + 1) * c.pageSize → storeRead c p = .error .storeReadError) ∧
    ((p + 1) * c.pageSize ≤ c.storeLen → ∃ bytes, storeRead c p = .ok bytes ∧ bytes.length = c.pageSize ∧
      ∀ i < c.pageSize, bytes[i]? = c.store[p * c.pageSize + i]? ∧ (bytes[i]?).isSome)

/-- A page write sets every byte of its frame and no other byte, and writes no other state. -/
def Obligations.FrameWriteSetsExactlyItsFrame : Prop :=
  ∀ (s : State) (f : FrameNo) (bytes : List Byte), f.toNat < s.cfg.frameLimit →
    bytes.length = s.cfg.pageSize →
    (∀ i < s.cfg.pageSize,
      some (memRead (frameWrite s f bytes) (f.toNat * s.cfg.pageSize + i)) = bytes[i]?) ∧
    (∀ pa, pa < f.toNat * s.cfg.pageSize ∨ (f.toNat + 1) * s.cfg.pageSize ≤ pa →
      memRead (frameWrite s f bytes) pa = memRead s pa) ∧
    frameWrite s f bytes = { s with frame := (frameWrite s f bytes).frame }

/-- R72: a frame read outside the bounds raises OutOfRange; inside it gives the byte of the frame. -/
def Obligations.FrameReadChecksBounds : Prop :=
  ∀ (s : State) (f : FrameNo) (o : Nat),
    (s.cfg.frameLimit ≤ f.toNat ∨ s.cfg.pageSize ≤ o → frameRead s f o = .error .outOfRange) ∧
    (f.toNat < s.cfg.frameLimit → o < s.cfg.pageSize →
      frameRead s f o = .ok (memRead s (f.toNat * s.cfg.pageSize + o)))

/-- R204: the shootdown leaves no page-table entry and no TLB entry that names the frame, and keeps every
other. -/
def Obligations.ShootdownRemovesTheFrame : Prop :=
  ∀ (s : State) (f : FrameNo), (s.pt.Pairwise fun a b => a.1 < b.1) →
    (∀ p, ptLookup (frameShootdown s f).pt p =
      if ptLookup s.pt p = some f then none else ptLookup s.pt p) ∧
    (∀ e, e ∈ (frameShootdown s f).tlb ↔ e ∈ s.tlb ∧ e.frame ≠ f) ∧
    frameShootdown s f = { s with pt := (frameShootdown s f).pt, tlb := (frameShootdown s f).tlb }

/-- R205: the allocator is FIFO over the allocation order: the queue is empty at reset, the free path appends
its frame, and the reclaim path takes the head and appends it again. -/
def Obligations.AllocatorIsFifo : Prop :=
  (∀ c : Config, c.WellFormed → allocQueue (State.boot c) = []) ∧
  (∀ s : State, s.Legal →
    (s.freeNext.toNat < s.cfg.frameLimit →
      allocQueue s = List.range s.freeNext.toNat ∧ s.victim = 0 ∧ (frameAlloc s).reclaimed = false ∧
      allocQueue (frameAlloc s).st = allocQueue s ++ [(frameAlloc s).frame.toNat]) ∧
    (s.freeNext.toNat = s.cfg.frameLimit →
      (frameAlloc s).frame = s.victim ∧ (frameAlloc s).reclaimed = true ∧
      ∃ rest, allocQueue s = (frameAlloc s).frame.toNat :: rest ∧
        allocQueue (frameAlloc s).st = rest ++ [(frameAlloc s).frame.toNat] ∧
        (frameAlloc s).st.victim.toNat = (s.victim.toNat + 1) % s.cfg.frameLimit))

/-- FRAME_ALLOC completes: on the free path it answers `FREE_NEXT` and advances it; with no free frame it answers
`VICTIM` with EVICT, advances it modulo `FRAME_LIMIT`, and removes every translation to the frame. No byte
of the frame store and no counter changes. -/
def Obligations.FrameAllocAnswersAndReclaims : Prop :=
  ∀ s : State, s.Legal →
    (s.freeNext.toNat < s.cfg.frameLimit →
      exec .frameAlloc s = .next { s with
        freeNext := BitVec.ofNat 16 (s.freeNext.toNat + 1)
        response := some (okWord { res0 := s.freeNext.setWidth 32 }) }) ∧
    (s.freeNext.toNat = s.cfg.frameLimit →
      ∃ pt, exec .frameAlloc s = .next { s with
          victim := BitVec.ofNat 16 ((s.victim.toNat + 1) % s.cfg.frameLimit)
          tlb := s.tlb.filter fun e => e.frame ≠ s.victim
          pt := pt
          response := some (okWord { evict := true, res0 := s.victim.setWidth 32 }) } ∧
        ∀ q, ptLookup pt q = if ptLookup s.pt q = some s.victim then none else ptLookup s.pt q)

/-- FRAME_LOAD completes: every byte of the frame becomes the byte of the page, every other byte of the frame
store reads as before, nothing else changes; a page the store does not wholly hold is answered
STORE_READ_ERROR and changes nothing. -/
def Obligations.FrameLoadCopiesThePage : Prop :=
  ∀ (f : FrameNo) (page : OperandA) (s : State), page.toNat < s.cfg.numPages → f.toNat < s.cfg.frameLimit →
    ((page.toNat + 1) * s.cfg.pageSize ≤ s.cfg.storeLen →
      ∃ t, exec (.frameLoad f page) s = .next t ∧ t = { s with frame := t.frame, response := some 0 } ∧
        (∀ o < s.cfg.pageSize, s.cfg.store[page.toNat * s.cfg.pageSize + o]? =
          some (memRead t (f.toNat * s.cfg.pageSize + o))) ∧
        (∀ pa, pa < f.toNat * s.cfg.pageSize ∨ (f.toNat + 1) * s.cfg.pageSize ≤ pa →
          memRead t pa = memRead s pa)) ∧
    (s.cfg.storeLen < (page.toNat + 1) * s.cfg.pageSize →
      exec (.frameLoad f page) s = .next { s with response := some 0x6000000000000000 })

/-- FRAME_READ completes with the sign-extended byte and changes nothing; a byte never written since reset is
the draw of `FRAME_INIT` in force, a free value (log entry 4). -/
def Obligations.FrameReadAnswersTheByte : Prop :=
  ∀ (f : FrameNo) (offset : OperandA) (s : State), offset.toNat < s.cfg.pageSize →
    f.toNat < s.cfg.frameLimit →
    exec (.frameRead f offset) s = .next { s with response := some (okWord
      { res1 := (memRead s (f.toNat * s.cfg.pageSize + offset.toNat)).signExtend 16 }) } ∧
    ((∀ b, (f.toNat * s.cfg.pageSize + offset.toNat, b) ∉ s.frame) →
      memRead s (f.toNat * s.cfg.pageSize + offset.toNat) =
        Config.frameInit s.draw f.toNat offset.toNat)

/-! ### TRANSLATE -/

/-- TRANSLATE completes on the TLB-hit path: HIT, the address and byte of the TLB's frame whatever the page table
says, one more hit and one more lookup, and nothing else changes. -/
def Obligations.TranslateUsesTheTlbOnAHit : Prop :=
  ∀ (la : OperandA) (s : State) (f : FrameNo), s.Legal → ⟨(decompose s.cfg la).1, f⟩ ∈ s.tlb →
    exec (.translate la) s = .next { s with
      hits := min (s.hits + 1) s.cfg.cntMax
      lookups := min (s.lookups + 1) s.cfg.cntMax
      response := some (okWord
        { hit := true
          res0 := BitVec.ofNat 32 (f.toNat * s.cfg.pageSize + (decompose s.cfg la).2)
          res1 := (memRead s (f.toNat * s.cfg.pageSize + (decompose s.cfg la).2)).signExtend 16 }) }

/-- TRANSLATE completes on the TLB-miss, page-table-hit path: the mapping enters the TLB (the oldest entry of a
full TLB goes), only `LOOKUPS` counts, neither HIT nor FAULT nor EVICT, and nothing else changes. -/
def Obligations.TranslateRefillsTheTlbFromThePageTable : Prop :=
  ∀ (la : OperandA) (s : State) (f : FrameNo), s.Legal →
    (∀ e ∈ s.tlb, e.page ≠ (decompose s.cfg la).1) → ((decompose s.cfg la).1, f) ∈ s.pt →
    exec (.translate la) s = .next { s with
      tlb := (if s.tlb.length < s.cfg.tlbCap then s.tlb else s.tlb.tail) ++ [⟨(decompose s.cfg la).1, f⟩]
      lookups := min (s.lookups + 1) s.cfg.cntMax
      response := some (okWord
        { res0 := BitVec.ofNat 32 (f.toNat * s.cfg.pageSize + (decompose s.cfg la).2)
          res1 := (memRead s (f.toNat * s.cfg.pageSize + (decompose s.cfg la).2)).signExtend 16 }) }

/-- TRANSLATE completes on the page-fault path: `f` is the next free frame, or with none free the victim, whose
translations are removed first; the page is copied into `f`, mapped and cached; a fault and a lookup are
counted; FAULT is answered, and EVICT exactly when a frame was reclaimed; every byte outside the frame
reads as before. -/
def Obligations.TranslateHandlesAPageFault : Prop :=
  ∀ (la : OperandA) (s : State), s.Legal →
    (∀ e ∈ s.tlb, e.page ≠ (decompose s.cfg la).1) → (∀ e ∈ s.pt, e.1 ≠ (decompose s.cfg la).1) →
    ((decompose s.cfg la).1 + 1) * s.cfg.pageSize ≤ s.cfg.storeLen →
    ∀ (free : Bool) (f : FrameNo) (tlb : List TlbEntry),
      (free = true ↔ s.freeNext.toNat < s.cfg.frameLimit) →
      f = (if free then s.freeNext else s.victim) →
      tlb = (if free then s.tlb else s.tlb.filter fun e => e.frame ≠ f) →
      ∃ t, exec (.translate la) s = .next t ∧
        t = { s with
          tlb := (if tlb.length < s.cfg.tlbCap then tlb else tlb.tail) ++ [⟨(decompose s.cfg la).1, f⟩]
          pt := t.pt
          freeNext := if free then BitVec.ofNat 16 (s.freeNext.toNat + 1) else s.freeNext
          victim := if free then s.victim else BitVec.ofNat 16 ((s.victim.toNat + 1) % s.cfg.frameLimit)
          frame := t.frame
          faults := min (s.faults + 1) s.cfg.cntMax
          lookups := min (s.lookups + 1) s.cfg.cntMax
          response := some (okWord
            { fault := true
              evict := !free
              res0 := BitVec.ofNat 32 (f.toNat * s.cfg.pageSize + (decompose s.cfg la).2)
              res1 := (memRead t (f.toNat * s.cfg.pageSize + (decompose s.cfg la).2)).signExtend 16 }) } ∧
        (∀ q, ptLookup t.pt q =
          if q = (decompose s.cfg la).1 then some f
          else if free = false ∧ ptLookup s.pt q = some f then none else ptLookup s.pt q) ∧
        (∀ o < s.cfg.pageSize, s.cfg.store[(decompose s.cfg la).1 * s.cfg.pageSize + o]? =
          some (memRead t (f.toNat * s.cfg.pageSize + o))) ∧
        (∀ pa, pa < f.toNat * s.cfg.pageSize ∨ (f.toNat + 1) * s.cfg.pageSize ≤ pa →
          memRead t pa = memRead s pa)

/-- R248: a store read error on the fault path ends TRANSLATE with nothing allocated, reclaimed, written, mapped,
cached or counted, and the next command proceeds normally. -/
def Obligations.TranslateOfAMissingPageChangesNothing : Prop :=
  ∀ (la : OperandA) (s : State),
    (∀ e ∈ s.tlb, e.page ≠ (decompose s.cfg la).1) → (∀ e ∈ s.pt, e.1 ≠ (decompose s.cfg la).1) →
    s.cfg.storeLen < ((decompose s.cfg la).1 + 1) * s.cfg.pageSize →
    exec (.translate la) s = .next { s with response := some 0x6000000000000000 } ∧
    ∀ i, ∃ t, exec i { s with response := some 0x6000000000000000 } = .next t ∧ exec i s = .next t

/-- A second TRANSLATE of the same address, in any state where the TLB still holds the page and its frame's bytes
are unchanged, is a TLB hit with the same address and byte, one more hit and no more faults. -/
def Obligations.TranslateIsIdempotent : Prop :=
  ∀ (la : OperandA) (s t : State) (r : Word64), s.Legal → exec (.translate la) s = .next t →
    t.response = some r → respStatus r = 0 →
    ∃ f, tlbLookup t.tlb (decompose s.cfg la).1 = some f ∧
      ∀ u : State, u.Legal → u.cfg = t.cfg → tlbLookup u.tlb (decompose s.cfg la).1 = some f →
        (∀ o < t.cfg.pageSize,
          memRead u (f.toNat * t.cfg.pageSize + o) = memRead t (f.toNat * t.cfg.pageSize + o)) →
        ∃ v r', exec (.translate la) u = .next v ∧ v.response = some r' ∧ respStatus r' = 0 ∧
          respHit r' = true ∧ respRes0 r' = respRes0 r ∧ respRes1 r' = respRes1 r ∧
          v.hits = min (u.hits + 1) u.cfg.cntMax ∧ v.faults = u.faults

/-! ### What commands leave alone -/

/-- No command changes the configuration, the store or what the host does next. R33 calls them parameters, not
state: that the model carries them in its state is its choice (log entries 1 and 2). -/
def Obligations.CommandsKeepTheParameters : Prop :=
  ∀ (i : Instr) (s t : State), exec i s = .next t →
    t.cfg = s.cfg ∧ t.cfg.store = s.cfg.store ∧ t.inputs = s.inputs

/-- R49: a command is a function of the architectural tuple, the request, the configuration and the store: states
that agree on them give the same response and the same new tuple. -/
def Obligations.CommandsReadOnlyTheTuple : Prop :=
  ∀ (i : Instr) (s t s' : State), s.cfg = t.cfg → SameTuple s t → exec i s = .next s' →
    ∃ t', exec i t = .next t' ∧ SameTuple s' t' ∧ s'.response = t'.response

/-- Each command writes only the parts of the state its rule names; the lookups, DECODE, FRAME_READ and STATS_READ
write none. -/
def Obligations.CommandsWriteOnlyTheirState : Prop :=
  ∀ (s t : State),
    (∀ la, exec (.translate la) s = .next t →
      t = { s with tlb := t.tlb, pt := t.pt, freeNext := t.freeNext, victim := t.victim, frame := t.frame,
                   hits := t.hits, faults := t.faults, lookups := t.lookups, response := t.response }) ∧
    (∀ p f, exec (.tlbInsert p f) s = .next t → t = { s with tlb := t.tlb, response := t.response }) ∧
    (∀ p f, exec (.ptInsert p f) s = .next t → t = { s with pt := t.pt, response := t.response }) ∧
    (exec .frameAlloc s = .next t →
      t = { s with tlb := t.tlb, pt := t.pt, freeNext := t.freeNext, victim := t.victim,
                   response := t.response }) ∧
    (∀ f p, exec (.frameLoad f p) s = .next t → t = { s with frame := t.frame, response := t.response }) ∧
    (∀ i : Instr, breaksCoherence i = false → commandClass i ≠ .translation → exec i s = .next t →
      t = { s with response := t.response })

/-- R162: TLB_INSERT writes only the TLB, and TLB_LOOKUP nothing: counters, page table, allocator and frame store
stay. -/
def Obligations.TlbCommandsTouchOnlyTheTlb : Prop :=
  ∀ (page : OperandA) (f : FrameNo) (s : State),
    (∃ t, exec (.tlbInsert page f) s = .next t ∧ t = { s with tlb := t.tlb, response := t.response }) ∧
    (∃ t, exec (.tlbLookup page) s = .next t ∧ t = { s with response := t.response })

/-- Every byte of the frame store reads as before, but for the frame FRAME_LOAD names and the frame a page fault
of TRANSLATE allocates. -/
def Obligations.OnlyLoadsAndFaultsStoreBytes : Prop :=
  ∀ (i : Instr) (s t : State), exec i s = .next t →
    (∀ f page, i = .frameLoad f page → ∀ pa,
      pa < f.toNat * s.cfg.pageSize ∨ (f.toNat + 1) * s.cfg.pageSize ≤ pa → memRead t pa = memRead s pa) ∧
    (∀ la, i = .translate la →
      (∀ pa, pa < (frameAlloc s).frame.toNat * s.cfg.pageSize ∨
        ((frameAlloc s).frame.toNat + 1) * s.cfg.pageSize ≤ pa → memRead t pa = memRead s pa) ∧
      ((tlbLookup s.tlb (decompose s.cfg la).1).isSome ∨ (ptLookup s.pt (decompose s.cfg la).1).isSome →
        ∀ pa, memRead t pa = memRead s pa)) ∧
    ((∀ f page, i ≠ .frameLoad f page) → (∀ la, i ≠ .translate la) → ∀ pa, memRead t pa = memRead s pa)

/-! ### Counters and status registers -/

/-- STATS_READ completes with the register its selector names and changes nothing. A counter that fits 32 bits is
shown exactly; with `CNT_WIDTH > 32` one that does not fit shows as a free value (log entry 8). -/
def Obligations.StatsReadAnswersTheRegister : Prop :=
  ∀ (sel : OperandA) (s : State) (v : Nat), s.Legal →
    [s.hits, s.faults, s.lookups, s.tlb.length, s.freeNext.toNat, s.victim.toNat][sel.toNat]? = some v →
    (∃ x, exec (.statsRead sel) s = .next { s with response := some (okWord { res0 := x }) } ∧
      (v < 2 ^ 32 → x = BitVec.ofNat 32 v)) ∧
    (s.cfg.cntWidth ≤ 32 ∨ 3 ≤ sel.toNat → v < 2 ^ 32)

/-- R270: only a TRANSLATE that answers OK writes the counters: `HITS` by its HIT flag, `FAULTS` by its FAULT flag,
`LOOKUPS` by one, each saturating. -/
def Obligations.OnlyCompletedTranslatesCount : Prop :=
  ∀ (i : Instr) (s t : State) (r : Word64), s.Legal → exec i s = .next t → t.response = some r →
    (commandClass i = .translation → respStatus r = 0 →
      t.hits = min (s.hits + (respHit r).toNat) s.cfg.cntMax ∧
      t.faults = min (s.faults + (respFault r).toNat) s.cfg.cntMax ∧
      t.lookups = min (s.lookups + 1) s.cfg.cntMax ∧ ¬ (respHit r = true ∧ respFault r = true)) ∧
    (commandClass i ≠ .translation ∨ respStatus r ≠ 0 →
      t.hits = s.hits ∧ t.faults = s.faults ∧ t.lookups = s.lookups)

/-- Between resets no counter decreases and no free frame comes back; a counter at its largest value stays there. -/
def Obligations.CountersAndFreeNextNeverDecrease : Prop :=
  ∀ s t : State, s.Legal → s.inputs.head? ≠ some .reset → step s = .next t →
    s.hits ≤ t.hits ∧ s.faults ≤ t.faults ∧ s.lookups ≤ t.lookups ∧
    s.freeNext.toNat ≤ t.freeNext.toNat ∧
    (s.hits = s.cfg.cntMax → t.hits = s.cfg.cntMax) ∧ (s.faults = s.cfg.cntMax → t.faults = s.cfg.cntMax) ∧
    (s.lookups = s.cfg.cntMax → t.lookups = s.cfg.cntMax)

/-- Every step keeps `HITS + FAULTS <= LOOKUPS` while `LOOKUPS` has not saturated. -/
def Obligations.StepKeepsTheCountersRelation : Prop :=
  ∀ s t : State, CountersAgree s → step s = .next t → CountersAgree t

/-! ### The step, reset and the host -/

/-- A step runs the decoded command: with the request word `w` first among the inputs and `w` decoding to `i`, a step
is `exec i` on the state with `w` taken. That the commands to come stand in the state is the model's choice
(log entry 2). -/
def Obligations.StepRunsTheDecodedCommand : Prop :=
  ∀ (s : State) (w : Word64) (rest : List HostInput) (i : Instr), s.cfg.WellFormed →
    s.inputs = .command w :: rest → decodeWord w = .ok i → step s = exec i { s with inputs := rest }

/-- What a step does otherwise: with no input it holds the state (log entry 11); an illegal word is answered
ILLEGAL_COMMAND; a request sent while another is outstanding gets no step (log entry 5). -/
def Obligations.StepOnOtherInputs : Prop :=
  ∀ (s : State) (w : Word64) (rest : List HostInput), s.cfg.WellFormed →
    (s.inputs = [] → step s = .next s) ∧
    (∀ r, s.inputs = .command w :: rest → decodeWord w = .error r →
      step s = .next { s with inputs := rest, response := some 0x2000000000000000 }) ∧
    (s.inputs = .commandWhileOutstanding w :: rest → step s = .fault .requestWhileOutstanding)

/-- R10: for a configuration that breaks any of the conditions no step is defined; for one that meets them all the
configuration is no ground to refuse. -/
def Obligations.IllFormedConfigurationsAreRefused : Prop :=
  ∀ s : State, step s = .refused .badConfiguration ↔
    ¬ (1 ≤ s.cfg.offsetBits ∧ s.cfg.offsetBits ≤ 16 ∧ 1 ≤ s.cfg.pnBits ∧
      s.cfg.offsetBits + s.cfg.pnBits ≤ 32 ∧ 1 ≤ s.cfg.tlbCap ∧ 1 ≤ s.cfg.frameLimit ∧
      s.cfg.frameLimit ≤ s.cfg.frameSlots ∧ s.cfg.frameSlots ≤ 2 ^ 16 ∧ s.cfg.frameLimit < 2 ^ 16 ∧
      s.cfg.frameLimit * 2 ^ s.cfg.offsetBits ≤ 2 ^ 32 ∧ s.cfg.tlbCap < 2 ^ 16)

/-- Reset empties the TLB and the page table, clears pointers and counters, and leaves the frame store at a fresh
draw of `FRAME_INIT`; the configuration and the store stay. That draws are numbered, that the first is number 0
and that the inputs to come stay are the model's choices (log entries 4 and 14). -/
def Obligations.ResetSetsEveryElement : Prop :=
  (∀ (s : State) (rest : List HostInput), s.cfg.WellFormed → s.inputs = .reset :: rest →
    ∃ t, step s = .next t ∧ t.tlb = [] ∧ (∀ p, ptLookup t.pt p = none) ∧ t.freeNext = 0 ∧ t.victim = 0 ∧
      t.hits = 0 ∧ t.faults = 0 ∧ t.lookups = 0 ∧ t.cfg = s.cfg ∧ t.inputs = rest ∧
      (∀ (f : FrameNo) (o : Nat), o < s.cfg.pageSize →
        memRead t (f.toNat * s.cfg.pageSize + o) = Config.frameInit (s.draw + 1) f.toNat o)) ∧
  (State.reset.tlb = [] ∧ (∀ p, ptLookup State.reset.pt p = none) ∧ State.reset.freeNext = 0 ∧
    State.reset.victim = 0 ∧ State.reset.hits = 0 ∧ State.reset.faults = 0 ∧ State.reset.lookups = 0 ∧
    (∀ (f : FrameNo) (o : Nat), o < State.reset.cfg.pageSize →
      memRead State.reset (f.toNat * State.reset.cfg.pageSize + o) = Config.frameInit 0 f.toNat o))

/-! ### Invariants -/

/-- The state after reset, under any well-formed configuration and store, is legal and coherent. -/
def Obligations.ResetIsLegalAndCoherent : Prop :=
  (∀ c : Config, c.WellFormed → (State.boot c).Legal ∧ Coherent (State.boot c) ∧
    CountersAgree (State.boot c)) ∧
  State.reset.Legal ∧ Coherent State.reset ∧ CountersAgree State.reset

/-- Every step keeps every state legal, maintenance commands and resets included: ranges, capacity, uniqueness, the
canonical forms of page table and frame store, the saturating counters. -/
def Obligations.StepKeepsStatesLegal : Prop :=
  ∀ s t : State, s.Legal → step s = .next t → t.Legal

/-- Every step keeps the invariants I1 to I5, unless it runs one of the four commands that can break them. -/
def Obligations.StepKeepsCoherence : Prop :=
  ∀ s t : State, s.Legal → Coherent s → (∀ x, s.inputs.head? = some x → keepsCoherence x = true) →
    step s = .next t → Coherent t

/-- After every command of any sequence from reset, under any well-formed configuration and any store, that
contains no TLB_INSERT, PT_INSERT, FRAME_ALLOC or FRAME_LOAD, the invariants hold, and as many pages are
resident as frames are allocated. This is R250 for sequences in which
further resets may stand: that inputs are a list in the state and that a reset keeps the rest of it are the
model's choices (log entries 2 and 14). -/
def Obligations.CoherentAlongEverySequence : Prop :=
  ∀ (c : Config) (ins : List HostInput) (k : Nat) (s : State), c.WellFormed →
    (∀ x ∈ ins, keepsCoherence x = true) →
    Sys2Proof.core.run k { State.boot c with inputs := ins } = .next s →
    Coherent s ∧ s.pt.length = s.freeNext.toNat

/-- Along such a sequence, while `FAULTS` has not saturated, `min(FAULTS, FRAME_LIMIT)` pages are resident. The
sequence is a list of inputs, resets among them, by the model's choice (log entries 2 and 14). -/
def Obligations.ResidentPagesAreTheFaultsUpToTheLimit : Prop :=
  ∀ (c : Config) (ins : List HostInput) (k : Nat) (s : State), c.WellFormed →
    (∀ x ∈ ins, keepsCoherence x = true) →
    Sys2Proof.core.run k { State.boot c with inputs := ins } = .next s →
    s.faults < s.cfg.cntMax → s.pt.length = min s.faults s.cfg.frameLimit

/-- In a coherent state a TRANSLATE that completes returns the backing-store byte of the truncated logical address,
at the physical address of the frame its page is then mapped to; the only error it can answer is
STORE_READ_ERROR. -/
def Obligations.CoherentTranslateReturnsTheStoreByte : Prop :=
  ∀ (la : OperandA) (s t : State) (r : Word64), s.Legal → Coherent s → exec (.translate la) s = .next t →
    t.response = some r →
    (respStatus r = 0 ∨ respStatus r = 3) ∧
    (respStatus r = 0 → ∃ b f,
      s.cfg.store[(decompose s.cfg la).1 * s.cfg.pageSize + (decompose s.cfg la).2]? = some b ∧
      respRes1 r = b.signExtend 16 ∧ ptLookup t.pt (decompose s.cfg la).1 = some f ∧
      (respRes0 r).toNat = f.toNat * s.cfg.pageSize + (decompose s.cfg la).2)

/-- R253: in a coherent state TRANSLATE reads no byte it has not written since reset, so no draw of `FRAME_INIT`
shows in its response. -/
def Obligations.TranslateNeverShowsTheInitialFrames : Prop :=
  ∀ (la : OperandA) (s t : State) (r : Word64), s.Legal → Coherent s → exec (.translate la) s = .next t →
    t.response = some r →
    (respStatus r = 0 → (Memory.get? t.frame (respRes0 r).toNat).isSome) ∧
    (∀ d, ∃ t', exec (.translate la) { s with draw := d } = .next t' ∧ t'.response = some r)

/-- With no free frame, a page fault in a coherent state reclaims the victim, makes its former page
unresolvable in page table and TLB, loads the new page into the frame and maps it there. -/
def Obligations.ExhaustedMemoryReclaimsTheOldestFrame : Prop :=
  ∀ (la : OperandA) (s : State), s.Legal → Coherent s → s.freeNext.toNat = s.cfg.frameLimit →
    (∀ e ∈ s.pt, e.1 ≠ (decompose s.cfg la).1) →
    ((decompose s.cfg la).1 + 1) * s.cfg.pageSize ≤ s.cfg.storeLen →
    ∃ t q, exec (.translate la) s = .next t ∧ ptLookup s.pt q = some s.victim ∧
      ptLookup t.pt q = none ∧ (∀ e ∈ t.tlb, e.page ≠ q) ∧
      frameHoldsPage t s.victim (decompose s.cfg la).1 ∧
      ptLookup t.pt (decompose s.cfg la).1 = some s.victim ∧
      t.victim.toNat = (s.victim.toNat + 1) % s.cfg.frameLimit
end

