-- ==== Sys2Proof/Laws/State.lean ====
section
/-! SUPPORT. What each update of the state writes and what it leaves, one lemma per field. -/
namespace Sys2Proof.Machine
open Sys2Proof

@[simp] theorem answer_cfg (s : State) (w : Word64) : (answer s w).cfg = s.cfg := rfl
@[simp] theorem answer_tlb (s : State) (w : Word64) : (answer s w).tlb = s.tlb := rfl
@[simp] theorem answer_pt (s : State) (w : Word64) : (answer s w).pt = s.pt := rfl
@[simp] theorem answer_freeNext (s : State) (w : Word64) : (answer s w).freeNext = s.freeNext := rfl
@[simp] theorem answer_victim (s : State) (w : Word64) : (answer s w).victim = s.victim := rfl
@[simp] theorem answer_frame (s : State) (w : Word64) : (answer s w).frame = s.frame := rfl
@[simp] theorem answer_hits (s : State) (w : Word64) : (answer s w).hits = s.hits := rfl
@[simp] theorem answer_faults (s : State) (w : Word64) : (answer s w).faults = s.faults := rfl
@[simp] theorem answer_lookups (s : State) (w : Word64) : (answer s w).lookups = s.lookups := rfl
@[simp] theorem answer_draw (s : State) (w : Word64) : (answer s w).draw = s.draw := rfl
@[simp] theorem answer_inputs (s : State) (w : Word64) : (answer s w).inputs = s.inputs := rfl
@[simp] theorem answer_response (s : State) (w : Word64) : (answer s w).response = some w := rfl

@[simp] theorem raise_cfg (e : XbError) (s : State) : (raise e s).cfg = s.cfg := rfl
@[simp] theorem raise_tlb (e : XbError) (s : State) : (raise e s).tlb = s.tlb := rfl
@[simp] theorem raise_pt (e : XbError) (s : State) : (raise e s).pt = s.pt := rfl
@[simp] theorem raise_freeNext (e : XbError) (s : State) : (raise e s).freeNext = s.freeNext := rfl
@[simp] theorem raise_victim (e : XbError) (s : State) : (raise e s).victim = s.victim := rfl
@[simp] theorem raise_frame (e : XbError) (s : State) : (raise e s).frame = s.frame := rfl
@[simp] theorem raise_hits (e : XbError) (s : State) : (raise e s).hits = s.hits := rfl
@[simp] theorem raise_faults (e : XbError) (s : State) : (raise e s).faults = s.faults := rfl
@[simp] theorem raise_lookups (e : XbError) (s : State) : (raise e s).lookups = s.lookups := rfl
@[simp] theorem raise_draw (e : XbError) (s : State) : (raise e s).draw = s.draw := rfl
@[simp] theorem raise_inputs (e : XbError) (s : State) : (raise e s).inputs = s.inputs := rfl
@[simp] theorem raise_response (e : XbError) (s : State) : (raise e s).response = some (errorWord e) := rfl

@[simp] theorem frameWrite_cfg (s : State) (f : FrameNo) (bytes : List Byte) : (frameWrite s f bytes).cfg = s.cfg := rfl
@[simp] theorem frameWrite_tlb (s : State) (f : FrameNo) (bytes : List Byte) : (frameWrite s f bytes).tlb = s.tlb := rfl
@[simp] theorem frameWrite_pt (s : State) (f : FrameNo) (bytes : List Byte) : (frameWrite s f bytes).pt = s.pt := rfl
@[simp] theorem frameWrite_freeNext (s : State) (f : FrameNo) (bytes : List Byte) : (frameWrite s f bytes).freeNext = s.freeNext := rfl
@[simp] theorem frameWrite_victim (s : State) (f : FrameNo) (bytes : List Byte) : (frameWrite s f bytes).victim = s.victim := rfl
@[simp] theorem frameWrite_frame (s : State) (f : FrameNo) (bytes : List Byte) : (frameWrite s f bytes).frame = Memory.writeBlock s.frame (physAddr s.cfg f 0) bytes := rfl
@[simp] theorem frameWrite_hits (s : State) (f : FrameNo) (bytes : List Byte) : (frameWrite s f bytes).hits = s.hits := rfl
@[simp] theorem frameWrite_faults (s : State) (f : FrameNo) (bytes : List Byte) : (frameWrite s f bytes).faults = s.faults := rfl
@[simp] theorem frameWrite_lookups (s : State) (f : FrameNo) (bytes : List Byte) : (frameWrite s f bytes).lookups = s.lookups := rfl
@[simp] theorem frameWrite_draw (s : State) (f : FrameNo) (bytes : List Byte) : (frameWrite s f bytes).draw = s.draw := rfl
@[simp] theorem frameWrite_inputs (s : State) (f : FrameNo) (bytes : List Byte) : (frameWrite s f bytes).inputs = s.inputs := rfl
@[simp] theorem frameWrite_response (s : State) (f : FrameNo) (bytes : List Byte) : (frameWrite s f bytes).response = s.response := rfl

@[simp] theorem frameShootdown_cfg (s : State) (f : FrameNo) : (frameShootdown s f).cfg = s.cfg := rfl
@[simp] theorem frameShootdown_tlb (s : State) (f : FrameNo) : (frameShootdown s f).tlb = tlbInvalidateFrame s.tlb f := rfl
@[simp] theorem frameShootdown_pt (s : State) (f : FrameNo) : (frameShootdown s f).pt = ptInvalidateFrame s.pt f := rfl
@[simp] theorem frameShootdown_freeNext (s : State) (f : FrameNo) : (frameShootdown s f).freeNext = s.freeNext := rfl
@[simp] theorem frameShootdown_victim (s : State) (f : FrameNo) : (frameShootdown s f).victim = s.victim := rfl
@[simp] theorem frameShootdown_frame (s : State) (f : FrameNo) : (frameShootdown s f).frame = s.frame := rfl
@[simp] theorem frameShootdown_hits (s : State) (f : FrameNo) : (frameShootdown s f).hits = s.hits := rfl
@[simp] theorem frameShootdown_faults (s : State) (f : FrameNo) : (frameShootdown s f).faults = s.faults := rfl
@[simp] theorem frameShootdown_lookups (s : State) (f : FrameNo) : (frameShootdown s f).lookups = s.lookups := rfl
@[simp] theorem frameShootdown_draw (s : State) (f : FrameNo) : (frameShootdown s f).draw = s.draw := rfl
@[simp] theorem frameShootdown_inputs (s : State) (f : FrameNo) : (frameShootdown s f).inputs = s.inputs := rfl
@[simp] theorem frameShootdown_response (s : State) (f : FrameNo) : (frameShootdown s f).response = s.response := rfl

@[simp] theorem countLookup_cfg (s : State) (hit fault : Bool) : (countLookup s hit fault).cfg = s.cfg := rfl
@[simp] theorem countLookup_tlb (s : State) (hit fault : Bool) : (countLookup s hit fault).tlb = s.tlb := rfl
@[simp] theorem countLookup_pt (s : State) (hit fault : Bool) : (countLookup s hit fault).pt = s.pt := rfl
@[simp] theorem countLookup_freeNext (s : State) (hit fault : Bool) : (countLookup s hit fault).freeNext = s.freeNext := rfl
@[simp] theorem countLookup_victim (s : State) (hit fault : Bool) : (countLookup s hit fault).victim = s.victim := rfl
@[simp] theorem countLookup_frame (s : State) (hit fault : Bool) : (countLookup s hit fault).frame = s.frame := rfl
@[simp] theorem countLookup_hits (s : State) (hit fault : Bool) : (countLookup s hit fault).hits = sat s.cfg (s.hits + hit.toNat) := rfl
@[simp] theorem countLookup_faults (s : State) (hit fault : Bool) : (countLookup s hit fault).faults = sat s.cfg (s.faults + fault.toNat) := rfl
@[simp] theorem countLookup_lookups (s : State) (hit fault : Bool) : (countLookup s hit fault).lookups = sat s.cfg (s.lookups + 1) := rfl
@[simp] theorem countLookup_draw (s : State) (hit fault : Bool) : (countLookup s hit fault).draw = s.draw := rfl
@[simp] theorem countLookup_inputs (s : State) (hit fault : Bool) : (countLookup s hit fault).inputs = s.inputs := rfl
@[simp] theorem countLookup_response (s : State) (hit fault : Bool) : (countLookup s hit fault).response = s.response := rfl

@[simp] theorem applyReset_cfg (s : State) : (applyReset s).cfg = s.cfg := rfl
@[simp] theorem applyReset_tlb (s : State) : (applyReset s).tlb = [] := rfl
@[simp] theorem applyReset_pt (s : State) : (applyReset s).pt = [] := rfl
@[simp] theorem applyReset_freeNext (s : State) : (applyReset s).freeNext = 0 := rfl
@[simp] theorem applyReset_victim (s : State) : (applyReset s).victim = 0 := rfl
@[simp] theorem applyReset_frame (s : State) : (applyReset s).frame = [] := rfl
@[simp] theorem applyReset_hits (s : State) : (applyReset s).hits = 0 := rfl
@[simp] theorem applyReset_faults (s : State) : (applyReset s).faults = 0 := rfl
@[simp] theorem applyReset_lookups (s : State) : (applyReset s).lookups = 0 := rfl
@[simp] theorem applyReset_draw (s : State) : (applyReset s).draw = s.draw + 1 := rfl
@[simp] theorem applyReset_inputs (s : State) : (applyReset s).inputs = s.inputs := rfl
@[simp] theorem applyReset_response (s : State) : (applyReset s).response = none := rfl

@[simp] theorem sendNext_cfg (s : State) (w : Word64) : (sendNext s w).cfg = s.cfg := rfl
@[simp] theorem sendNext_tlb (s : State) (w : Word64) : (sendNext s w).tlb = s.tlb := rfl
@[simp] theorem sendNext_pt (s : State) (w : Word64) : (sendNext s w).pt = s.pt := rfl
@[simp] theorem sendNext_freeNext (s : State) (w : Word64) : (sendNext s w).freeNext = s.freeNext := rfl
@[simp] theorem sendNext_victim (s : State) (w : Word64) : (sendNext s w).victim = s.victim := rfl
@[simp] theorem sendNext_frame (s : State) (w : Word64) : (sendNext s w).frame = s.frame := rfl
@[simp] theorem sendNext_hits (s : State) (w : Word64) : (sendNext s w).hits = s.hits := rfl
@[simp] theorem sendNext_faults (s : State) (w : Word64) : (sendNext s w).faults = s.faults := rfl
@[simp] theorem sendNext_lookups (s : State) (w : Word64) : (sendNext s w).lookups = s.lookups := rfl
@[simp] theorem sendNext_draw (s : State) (w : Word64) : (sendNext s w).draw = s.draw := rfl
@[simp] theorem sendNext_inputs (s : State) (w : Word64) : (sendNext s w).inputs = .command w :: s.inputs := rfl
@[simp] theorem sendNext_response (s : State) (w : Word64) : (sendNext s w).response = s.response := rfl

@[simp] theorem boot_cfg (c : Config) : (State.boot c).cfg = c := rfl
@[simp] theorem boot_tlb (c : Config) : (State.boot c).tlb = [] := rfl
@[simp] theorem boot_pt (c : Config) : (State.boot c).pt = [] := rfl
@[simp] theorem boot_freeNext (c : Config) : (State.boot c).freeNext = 0 := rfl
@[simp] theorem boot_victim (c : Config) : (State.boot c).victim = 0 := rfl
@[simp] theorem boot_frame (c : Config) : (State.boot c).frame = [] := rfl
@[simp] theorem boot_hits (c : Config) : (State.boot c).hits = 0 := rfl
@[simp] theorem boot_faults (c : Config) : (State.boot c).faults = 0 := rfl
@[simp] theorem boot_lookups (c : Config) : (State.boot c).lookups = 0 := rfl
@[simp] theorem boot_draw (c : Config) : (State.boot c).draw = 0 := rfl
@[simp] theorem boot_inputs (c : Config) : (State.boot c).inputs = [] := rfl
@[simp] theorem boot_response (c : Config) : (State.boot c).response = none := rfl

end Sys2Proof.Machine
end

