-- ==== Sys2Proof/Laws/Memory.lean ====
section
/-! SUPPORT. The frame store: what a read gives after a page write, and that a write keeps the canonical
form; the backing-store read; the frame read. -/
namespace Sys2Proof.Machine
open Sys2Proof

theorem Memory.get?_append (m n : Memory) (x : Nat) :
    Memory.get? (m ++ n) x = (Memory.get? m x).or (Memory.get? n x) := by
  induction m with
  | nil => simp [Memory.get?]
  | cons c m ih =>
    obtain ⟨a, b⟩ := c
    by_cases h : a = x <;> simp [Memory.get?, h, ih]

theorem Memory.get?_filter (P : Nat → Bool) (m : Memory) (x : Nat) :
    Memory.get? (m.filter fun c => P c.1) x = if P x then Memory.get? m x else none := by
  induction m with
  | nil => simp [Memory.get?]
  | cons c m ih =>
    obtain ⟨a, b⟩ := c
    by_cases hP : P a = true
    · rw [List.filter_cons_of_pos (by simpa using hP)]
      by_cases h : a = x
      · subst h; simp [Memory.get?, hP]
      · simp [Memory.get?, h, ih]
    · rw [List.filter_cons_of_neg (by simpa using hP), ih]
      by_cases h : a = x
      · subst h; simp [hP]
      · simp [Memory.get?, h]

theorem Memory.get?_cells (bytes : List Byte) (base x : Nat) :
    Memory.get? (Memory.cells base bytes) x = if base ≤ x then bytes[x - base]? else none := by
  induction bytes generalizing base with
  | nil => simp [Memory.cells, Memory.get?]
  | cons b bs ih =>
    by_cases h : base = x
    · subst h; simp [Memory.cells, Memory.get?]
    · simp only [Memory.cells, Memory.get?, h, if_false, ih]
      by_cases h2 : base ≤ x
      · obtain ⟨k, rfl⟩ : ∃ k, x = base + 1 + k := ⟨x - base - 1, by omega⟩
        have e : base + 1 + k - base = k + 1 := by omega
        simp [e, show base ≤ base + 1 + k by omega]
      · have : ¬ base + 1 ≤ x := by omega
        simp [h2, this]

/-- What a read gives after a block is stored: the block inside it, and outside it what was there. -/
theorem Memory.get?_writeBlock (m : Memory) (base : Nat) (bytes : List Byte) (x : Nat) :
    Memory.get? (Memory.writeBlock m base bytes) x =
      if base ≤ x ∧ x < base + bytes.length then bytes[x - base]? else Memory.get? m x := by
  have hlo := Memory.get?_filter (fun a => decide (a < base)) m x
  have hhi := Memory.get?_filter (fun a => decide (base + bytes.length ≤ a)) m x
  simp only [Memory.writeBlock, Memory.get?_append, Memory.get?_cells, hlo, hhi]
  by_cases h1 : base ≤ x
  · by_cases h2 : x < base + bytes.length
    · simp [h1, h2, show ¬ x < base by omega, show ¬ base + bytes.length ≤ x by omega]
    · have h3 : bytes[x - base]? = none := by
        rw [List.getElem?_eq_none_iff]; omega
      simp [h1, h2, h3, show ¬ x < base by omega, show base + bytes.length ≤ x by omega]
  · simp [h1, show x < base by omega, show ¬ base + bytes.length ≤ x by omega]

theorem Memory.mem_cells {bytes : List Byte} {base : Nat} {c : Host.Cell}
    (h : c ∈ Memory.cells base bytes) : base ≤ c.1 ∧ c.1 < base + bytes.length := by
  induction bytes generalizing base with
  | nil => simp [Memory.cells] at h
  | cons b bs ih =>
    simp only [Memory.cells, List.mem_cons] at h
    simp only [List.length_cons]
    rcases h with rfl | h
    · simp
    · have := ih h
      omega

theorem Memory.wf_cells (bytes : List Byte) (base : Nat) : Memory.wf (Memory.cells base bytes) := by
  induction bytes generalizing base with
  | nil => simp [Memory.cells, Memory.wf]
  | cons b bs ih =>
    simp only [Memory.cells, Memory.wf, List.pairwise_cons]
    refine ⟨fun c hc => ?_, ih (base + 1)⟩
    have := Memory.mem_cells hc
    show base < c.1
    omega

/-- Storing a block keeps the canonical form. -/
theorem Memory.wf_writeBlock {m : Memory} (h : Memory.wf m) (base : Nat) (bytes : List Byte) :
    Memory.wf (Memory.writeBlock m base bytes) := by
  have hlo : Memory.wf (m.filter fun c => decide (c.1 < base)) := List.Pairwise.filter _ h
  have hhi : Memory.wf (m.filter fun c => decide (base + bytes.length ≤ c.1)) := List.Pairwise.filter _ h
  simp only [Memory.wf, Memory.writeBlock, List.pairwise_append] at *
  refine ⟨⟨hlo, Memory.wf_cells bytes base, ?_⟩, hhi, ?_⟩
  · intro c hc d hd
    have := Memory.mem_cells hd
    simp only [List.mem_filter, decide_eq_true_eq] at hc
    omega
  · intro c hc d hd
    simp only [List.mem_append, List.mem_filter, decide_eq_true_eq] at hc hd
    rcases hc with hc | hc
    · omega
    · have := Memory.mem_cells hc
      omega

theorem Memory.mem_writeBlock {m : Memory} {base : Nat} {bytes : List Byte} {c : Host.Cell}
    (h : c ∈ Memory.writeBlock m base bytes) : c ∈ m ∨ (base ≤ c.1 ∧ c.1 < base + bytes.length) := by
  simp only [Memory.writeBlock, List.mem_append, List.mem_filter] at h
  rcases h with (h | h) | h
  · exact .inl h.1
  · exact .inr (Memory.mem_cells h)
  · exact .inl h.1

theorem frameWrite_keeps_memory_wf {s : State} (h : Memory.wf s.frame) (f : FrameNo) (bytes : List Byte) :
    Memory.wf (frameWrite s f bytes).frame :=
  Memory.wf_writeBlock h _ _

theorem reset_memory_wf : Memory.wf State.reset.frame := by
  simp [State.reset, Memory.wf]

theorem applyReset_memory_wf (s : State) : Memory.wf (applyReset s).frame := by
  simp [Memory.wf]

@[simp] theorem pageSize_pos (c : Config) : 0 < c.pageSize := Nat.two_pow_pos _

@[simp] theorem numPages_pos (c : Config) : 0 < c.numPages := Nat.two_pow_pos _

/-- `StoreRead` succeeds exactly when the whole page is in the store (20_memory.md R77). -/
theorem storeRead_ok {c : Config} {p : Nat} (h : (p + 1) * c.pageSize ≤ c.storeLen) :
    storeRead c p = .ok (storePage c p) := by
  simp [storeRead, Nat.not_lt.mpr h]

theorem storeRead_error {c : Config} {p : Nat} (h : c.storeLen < (p + 1) * c.pageSize) :
    storeRead c p = .error .storeReadError := by
  simp [storeRead, h]

theorem storeRead_cases (c : Config) (p : Nat) :
    ((p + 1) * c.pageSize ≤ c.storeLen ∧ storeRead c p = .ok (storePage c p)) ∨
    (c.storeLen < (p + 1) * c.pageSize ∧ storeRead c p = .error .storeReadError) := by
  rcases Nat.lt_or_ge c.storeLen ((p + 1) * c.pageSize) with h | h
  · exact .inr ⟨h, storeRead_error h⟩
  · exact .inl ⟨h, storeRead_ok h⟩

theorem storePage_length {c : Config} {p : Nat} (h : (p + 1) * c.pageSize ≤ c.storeLen) :
    (storePage c p).length = c.pageSize := by
  have : (p + 1) * c.pageSize = p * c.pageSize + c.pageSize := Nat.succ_mul _ _
  simp only [storePage, Config.storeLen, List.length_take, List.length_drop] at *
  omega

theorem storePage_getElem? {c : Config} {p o : Nat} (ho : o < c.pageSize) :
    (storePage c p)[o]? = c.store[p * c.pageSize + o]? := by
  simp [storePage, ho]

/-- `FrameRead` succeeds exactly inside the configured bounds (20_memory.md R72). -/
theorem frameRead_ok {s : State} {f : FrameNo} {o : Nat} (hf : f.toNat < s.cfg.frameLimit)
    (ho : o < s.cfg.pageSize) : frameRead s f o = .ok (memRead s (physAddr s.cfg f o)) := by
  simp [frameRead, Nat.not_le.mpr hf, Nat.not_le.mpr ho]

theorem frameRead_error {s : State} {f : FrameNo} {o : Nat}
    (h : s.cfg.frameLimit ≤ f.toNat ∨ s.cfg.pageSize ≤ o) : frameRead s f o = .error .outOfRange := by
  simp [frameRead, h]

/-- Two offsets of different frames are different physical addresses. -/
theorem physAddr_ne {c : Config} {f g : FrameNo} {o u : Nat} (hfg : f ≠ g) (ho : o < c.pageSize)
    (hu : u < c.pageSize) : physAddr c f o ≠ physAddr c g u := by
  intro h
  have hdiv : ∀ (k : FrameNo) (v : Nat), v < c.pageSize → physAddr c k v / c.pageSize = k.toNat := by
    intro k v hv
    rw [physAddr, Nat.add_comm, Nat.add_mul_div_right _ _ (pageSize_pos c), Nat.div_eq_of_lt hv, Nat.zero_add]
  have := hdiv f o ho
  rw [h, hdiv g u hu] at this
  exact hfg (BitVec.eq_of_toNat_eq this.symm)

/-- What a read of the frame store gives after a page write (20_memory.md R73). -/
theorem memRead_frameWrite (s : State) (f : FrameNo) (bytes : List Byte) (pa : Nat) :
    memRead (frameWrite s f bytes) pa =
      if h : physAddr s.cfg f 0 ≤ pa ∧ pa < physAddr s.cfg f 0 + bytes.length then
        bytes[pa - physAddr s.cfg f 0]'(by omega)
      else memRead s pa := by
  simp only [memRead, frameWrite_frame, frameWrite_cfg, frameWrite_draw, Memory.get?_writeBlock]
  split
  · rename_i h
    have : pa - physAddr s.cfg f 0 < bytes.length := by omega
    simp [this]
  · simp

end Sys2Proof.Machine
end

