-- ==== Sys2Proof/Laws/PageTable.lean ====
section
/-! SUPPORT. The page-table primitives: what a lookup finds after an insert and after an invalidation, and
that both keep the pages rising. -/
namespace Sys2Proof.Machine
open Sys2Proof

theorem ptLookup_mem {t : PageTable} {p : Nat} {f : FrameNo} (h : ptLookup t p = some f) : (p, f) ∈ t := by
  induction t with
  | nil => simp [ptLookup] at h
  | cons e t ih =>
    obtain ⟨q, g⟩ := e
    by_cases hp : q = p
    · simp only [ptLookup, hp, if_true, Option.some.injEq] at h
      subst hp h
      exact List.mem_cons_self
    · simp only [ptLookup, hp, if_false] at h
      exact List.mem_cons_of_mem _ (ih h)

theorem ptLookup_eq_none {t : PageTable} {p : Nat} : ptLookup t p = none ↔ ∀ e ∈ t, e.1 ≠ p := by
  induction t with
  | nil => simp [ptLookup]
  | cons e t ih =>
    obtain ⟨q, g⟩ := e
    by_cases h : q = p <;> simp [ptLookup, h, ih]

theorem ptLookup_of_mem {t : PageTable} (hr : t.Pairwise fun a b => a.1 < b.1) {e : Nat × FrameNo}
    (h : e ∈ t) : ptLookup t e.1 = some e.2 := by
  induction t with
  | nil => simp at h
  | cons d t ih =>
    obtain ⟨q, g⟩ := d
    rw [List.pairwise_cons] at hr
    rcases List.mem_cons.mp h with rfl | h
    · simp [ptLookup]
    · have : q ≠ e.1 := Nat.ne_of_lt (hr.1 e h)
      simp [ptLookup, this, ih hr.2 h]

/-- `PtInsert` maps its page and no other (42_page_table.md R181). -/
theorem ptLookup_ptSet (t : PageTable) (p : Nat) (f : FrameNo) (q : Nat) :
    ptLookup (ptSet t p f) q = if q = p then some f else ptLookup t q := by
  induction t with
  | nil => by_cases h : p = q <;> simp [ptSet, ptLookup, h, eq_comm]
  | cons e t ih =>
    obtain ⟨r, g⟩ := e
    simp only [ptSet]
    split
    · by_cases h : q = p
      · simp [ptLookup, h]
      · simp [ptLookup, h, Ne.symm h]
    · split
      · rename_i h1 h2
        subst h2
        by_cases h : q = p
        · simp [ptLookup, h]
        · simp [ptLookup, h, Ne.symm h]
      · rename_i h1 h2
        simp only [ptLookup, ih]
        by_cases h : r = q
        · subst h; simp [Ne.symm h2]
        · simp [h]

theorem mem_ptSet {t : PageTable} {p : Nat} {f : FrameNo} {e : Nat × FrameNo} (h : e ∈ ptSet t p f) :
    e = (p, f) ∨ e ∈ t := by
  induction t with
  | nil => simpa [ptSet] using h
  | cons d t ih =>
    obtain ⟨r, g⟩ := d
    simp only [ptSet] at h
    split at h
    · simpa using h
    · split at h
      · simp only [List.mem_cons] at h ⊢
        exact h.imp_right .inr
      · simp only [List.mem_cons] at h ⊢
        rcases h with rfl | h
        · exact .inr (.inl rfl)
        · exact (ih h).imp_right .inr

theorem ptSet_rising {t : PageTable} (hr : t.Pairwise fun a b => a.1 < b.1) (p : Nat) (f : FrameNo) :
    (ptSet t p f).Pairwise fun a b => a.1 < b.1 := by
  induction t with
  | nil => simp [ptSet]
  | cons d t ih =>
    obtain ⟨r, g⟩ := d
    rw [List.pairwise_cons] at hr
    simp only [ptSet]
    split
    · rename_i h
      refine List.pairwise_cons.mpr ⟨?_, List.pairwise_cons.mpr hr⟩
      intro e he
      rcases List.mem_cons.mp he with rfl | he
      · exact h
      · exact Nat.lt_trans h (hr.1 e he)
    · split
      · rename_i h1 h2
        subst h2
        exact List.pairwise_cons.mpr hr
      · rename_i h1 h2
        refine List.pairwise_cons.mpr ⟨?_, ih hr.2⟩
        intro e he
        rcases mem_ptSet he with rfl | he
        · show r < p
          omega
        · exact hr.1 e he

/-- Mapping a page that is not resident adds one entry. -/
theorem ptSet_perm {t : PageTable} {p : Nat} (hn : ptLookup t p = none) (f : FrameNo) :
    (ptSet t p f).Perm ((p, f) :: t) := by
  induction t with
  | nil => simp [ptSet]
  | cons d t ih =>
    obtain ⟨r, g⟩ := d
    rw [ptLookup_eq_none] at hn
    simp only [List.mem_cons, forall_eq_or_imp] at hn
    simp only [ptSet, Ne.symm hn.1, if_false]
    split
    · exact List.Perm.refl _
    · exact ((ih (ptLookup_eq_none.mpr hn.2)).cons _).trans (List.Perm.swap _ _ _)

theorem mem_ptInvalidateFrame {t : PageTable} {f : FrameNo} {e : Nat × FrameNo} :
    e ∈ ptInvalidateFrame t f ↔ e ∈ t ∧ e.2 ≠ f := by
  simp [ptInvalidateFrame]

theorem ptInvalidateFrame_rising {t : PageTable} (hr : t.Pairwise fun a b => a.1 < b.1) (f : FrameNo) :
    (ptInvalidateFrame t f).Pairwise fun a b => a.1 < b.1 :=
  List.Pairwise.filter _ hr

/-- `PtInvalidateFrame(f)` unmaps the pages on frame `f` and no other (42_page_table.md R182). -/
theorem ptLookup_ptInvalidateFrame {t : PageTable} (hr : t.Pairwise fun a b => a.1 < b.1) (f : FrameNo)
    (p : Nat) :
    ptLookup (ptInvalidateFrame t f) p = if ptLookup t p = some f then none else ptLookup t p := by
  cases h : ptLookup t p with
  | none =>
    simp only [reduceCtorEq, if_false]
    rw [ptLookup_eq_none] at h ⊢
    exact fun e he => h e (mem_ptInvalidateFrame.mp he).1
  | some g =>
    by_cases hg : g = f
    · subst hg
      simp only [if_true]
      rw [ptLookup_eq_none]
      intro e he hp
      have hm := mem_ptInvalidateFrame.mp he
      have := ptLookup_of_mem hr hm.1
      rw [hp, h] at this
      exact hm.2 (Option.some.inj this).symm
    · simp only [Option.some.injEq, hg, if_false]
      exact ptLookup_of_mem (ptInvalidateFrame_rising hr f)
        (mem_ptInvalidateFrame.mpr ⟨ptLookup_mem h, hg⟩)

end Sys2Proof.Machine
end

