-- ==== Sys2Proof/Laws/Tlb.lean ====
section
/-! SUPPORT. The TLB primitives: what a lookup finds, everything an insert can do, and that both updates
keep capacity and uniqueness. -/
namespace Sys2Proof.Machine
open Sys2Proof

theorem tlbLookup_eq_none {t : List TlbEntry} {p : Nat} :
    tlbLookup t p = none ↔ ∀ e ∈ t, e.page ≠ p := by
  induction t with
  | nil => simp [tlbLookup]
  | cons e t ih =>
    by_cases h : e.page = p <;> simp [tlbLookup, h, ih]

theorem tlbLookup_mem {t : List TlbEntry} {p : Nat} {f : FrameNo} (h : tlbLookup t p = some f) :
    ⟨p, f⟩ ∈ t := by
  induction t with
  | nil => simp [tlbLookup] at h
  | cons e t ih =>
    by_cases hp : e.page = p
    · simp only [tlbLookup, hp, if_true, Option.some.injEq] at h
      subst hp h
      exact List.mem_cons_self
    · simp only [tlbLookup, hp, if_false] at h
      exact List.mem_cons_of_mem _ (ih h)

theorem tlbLookup_of_mem {t : List TlbEntry} (hu : (t.map TlbEntry.page).Nodup) {e : TlbEntry} (h : e ∈ t) :
    tlbLookup t e.page = some e.frame := by
  induction t with
  | nil => simp at h
  | cons d t ih =>
    simp only [List.map_cons, List.nodup_cons, List.mem_map, not_exists, not_and] at hu
    rcases List.mem_cons.mp h with rfl | h
    · simp [tlbLookup]
    · have : d.page ≠ e.page := fun hp => hu.1 e h hp.symm
      simp [tlbLookup, this, ih hu.2 h]

/-- Everything `TlbInsert` can do (41_tlb.md R152 to R154). -/
theorem tlbInsert_cases (cap : Nat) (t : List TlbEntry) (p : Nat) (f : FrameNo) :
    (∃ g, tlbLookup t p = some g ∧ tlbInsert cap t p f = ⟨t, some g, none⟩) ∨
    (tlbLookup t p = none ∧ t.length < cap ∧ tlbInsert cap t p f = ⟨t ++ [⟨p, f⟩], none, none⟩) ∨
    (tlbLookup t p = none ∧ cap ≤ t.length ∧
      tlbInsert cap t p f = ⟨t.tail ++ [⟨p, f⟩], none, t.head?⟩) := by
  unfold tlbInsert
  cases h : tlbLookup t p with
  | some g => exact .inl ⟨g, rfl, rfl⟩
  | none =>
    by_cases hc : t.length < cap
    · exact .inr (.inl ⟨rfl, hc, by simp [hc]⟩)
    · exact .inr (.inr ⟨rfl, Nat.not_lt.mp hc, by simp [hc]⟩)

theorem tlbInsert_length {cap : Nat} {t : List TlbEntry} (hc : 1 ≤ cap) (h : t.length ≤ cap) (p : Nat)
    (f : FrameNo) : (tlbInsert cap t p f).tlb.length ≤ cap := by
  rcases tlbInsert_cases cap t p f with ⟨g, -, e⟩ | ⟨-, hl, e⟩ | ⟨-, hl, e⟩ <;> rw [e]
  · exact h
  · simp only [List.length_append, List.length_singleton]; omega
  · simp only [List.length_append, List.length_tail, List.length_singleton]; omega

theorem tlbInsert_mem {cap : Nat} {t : List TlbEntry} {p : Nat} {f : FrameNo} {e : TlbEntry}
    (h : e ∈ (tlbInsert cap t p f).tlb) : e ∈ t ∨ e = ⟨p, f⟩ := by
  rcases tlbInsert_cases cap t p f with ⟨g, -, he⟩ | ⟨-, -, he⟩ | ⟨-, -, he⟩ <;> rw [he] at h
  · exact .inl h
  · simpa using h
  · rcases List.mem_append.mp h with h | h
    · exact .inl (List.mem_of_mem_tail h)
    · exact .inr (by simpa using h)

theorem nodup_append_absent {t : List TlbEntry} (hu : (t.map TlbEntry.page).Nodup) {p : Nat} (f : FrameNo)
    (hp : ∀ e ∈ t, e.page ≠ p) : ((t ++ [TlbEntry.mk p f]).map TlbEntry.page).Nodup := by
  rw [List.map_append, List.nodup_append]
  refine ⟨hu, by simp, ?_⟩
  intro a ha b hb
  simp only [List.mem_map, List.map_cons, List.map_nil, List.mem_singleton] at ha hb
  obtain ⟨e, he, rfl⟩ := ha
  subst hb
  exact hp e he

theorem tlbInsert_unique {cap : Nat} {t : List TlbEntry} (hu : (t.map TlbEntry.page).Nodup) (p : Nat)
    (f : FrameNo) : ((tlbInsert cap t p f).tlb.map TlbEntry.page).Nodup := by
  rcases tlbInsert_cases cap t p f with ⟨g, -, e⟩ | ⟨hn, -, e⟩ | ⟨hn, -, e⟩ <;> rw [e]
  · exact hu
  · exact nodup_append_absent hu f (tlbLookup_eq_none.mp hn)
  · refine nodup_append_absent ?_ f fun e he => tlbLookup_eq_none.mp hn e (List.mem_of_mem_tail he)
    rw [List.map_tail]
    exact hu.sublist (List.tail_sublist _)

/-- After `TlbInsert(p, f)` the TLB maps `p`: to what it mapped before, else to `f`. -/
theorem tlbLookup_tlbInsert (cap : Nat) (t : List TlbEntry) (p : Nat) (f : FrameNo) :
    tlbLookup (tlbInsert cap t p f).tlb p = some ((tlbLookup t p).getD f) := by
  have absent : ∀ u : List TlbEntry, (∀ e ∈ u, e.page ≠ p) → tlbLookup (u ++ [⟨p, f⟩]) p = some f := by
    intro u hu
    induction u with
    | nil => simp [tlbLookup]
    | cons e u ih =>
      simp only [List.mem_cons, forall_eq_or_imp] at hu
      simp [tlbLookup, hu.1, ih hu.2]
  rcases tlbInsert_cases cap t p f with ⟨g, h, e⟩ | ⟨hn, -, e⟩ | ⟨hn, -, e⟩ <;> rw [e]
  · simp [h]
  · simp [hn, absent t (tlbLookup_eq_none.mp hn)]
  · simp [hn, absent t.tail fun e he => tlbLookup_eq_none.mp hn e (List.mem_of_mem_tail he)]

theorem mem_tlbInvalidateFrame {t : List TlbEntry} {f : FrameNo} {e : TlbEntry} :
    e ∈ tlbInvalidateFrame t f ↔ e ∈ t ∧ e.frame ≠ f := by
  simp [tlbInvalidateFrame]

theorem tlbInvalidateFrame_sublist (t : List TlbEntry) (f : FrameNo) : (tlbInvalidateFrame t f).Sublist t :=
  List.filter_sublist

theorem tlbInvalidateFrame_length (t : List TlbEntry) (f : FrameNo) :
    (tlbInvalidateFrame t f).length ≤ t.length :=
  (tlbInvalidateFrame_sublist t f).length_le

theorem tlbInvalidateFrame_unique {t : List TlbEntry} (hu : (t.map TlbEntry.page).Nodup) (f : FrameNo) :
    ((tlbInvalidateFrame t f).map TlbEntry.page).Nodup :=
  hu.sublist ((tlbInvalidateFrame_sublist t f).map _)

end Sys2Proof.Machine
end

