-- ==== Sys2Proof/Laws/Words.lean ====
section
/-! SUPPORT. The bits and fields of a response word that XB builds, and of a request word that the encoder
builds. -/
namespace Sys2Proof.Machine
open Sys2Proof

/-- An `OK` response word, bit by bit (30_encoding.md R110). -/
theorem okWord_getLsbD (r : Reply) (k : Nat) :
    (okWord r).getLsbD k =
      if k < 32 then r.res0.getLsbD k else if k < 48 then r.res1.getLsbD (k - 32)
      else if k < 58 then false else if k < 59 then r.evict else if k < 60 then r.fault
      else if k < 61 then r.hit else false := by
  show BitVec.getLsbD (w := 3 + 1 + 1 + 1 + 10 + 16 + 32) ((0 : BitVec 3) ++ BitVec.ofBool r.hit ++
    BitVec.ofBool r.fault ++ BitVec.ofBool r.evict ++ (0 : BitVec 10) ++ r.res1 ++ r.res0) k = _
  simp only [BitVec.getLsbD_append, BitVec.getLsbD_ofBool, BitVec.ofNat_eq_ofNat, BitVec.getLsbD_zero]
  grind

/-- The fields of an `OK` response word are those of its reply (30_encoding.md R110). -/
theorem okWord_fields (r : Reply) :
    respStatus (okWord r) = 0 ∧ respHit (okWord r) = r.hit ∧ respFault (okWord r) = r.fault ∧
    respEvict (okWord r) = r.evict ∧ respRrsv (okWord r) = 0 ∧ respRes1 (okWord r) = r.res1 ∧
    respRes0 (okWord r) = r.res0 := by
  refine ⟨?_, by rw [respHit, okWord_getLsbD]; rfl, by rw [respFault, okWord_getLsbD]; rfl,
    by rw [respEvict, okWord_getLsbD]; rfl, ?_, ?_, ?_⟩ <;>
  · apply BitVec.eq_of_getLsbD_eq
    intro i hi
    simp only [respStatus, respRrsv, respRes1, respRes0, BitVec.getLsbD_extractLsb', okWord_getLsbD]
    grind

/-- An error response word is its status and zeros (30_encoding.md R111). -/
theorem errorWord_fields (e : XbError) :
    respStatus (errorWord e) = statusCode e ∧ (errorWord e).extractLsb' 0 61 = 0 := by
  cases e <;> decide

end Sys2Proof.Machine

namespace Sys2Proof

/-- An encoded command, bit by bit (30_encoding.md R101). -/
theorem encode_getLsbD (i : Instr) (k : Nat) :
    (encode i).getLsbD k =
      if k < 32 then i.operandA.getLsbD k else if k < 48 then i.operandB.getLsbD (k - 32)
      else if k < 60 then false else (opcodeBits i.opcode).getLsbD (k - 60) := by
  show BitVec.getLsbD (w := 4 + 12 + 16 + 32)
    (opcodeBits i.opcode ++ (0 : BitVec 12) ++ i.operandB ++ i.operandA) k = _
  simp only [BitVec.getLsbD_append, BitVec.ofNat_eq_ofNat, BitVec.getLsbD_zero]
  grind

/-- The fields of an encoded command (30_encoding.md R101, R102). -/
theorem encode_fields (i : Instr) :
    fieldOp (encode i) = opcodeBits i.opcode ∧ fieldRsv (encode i) = 0 ∧
    fieldB (encode i) = i.operandB ∧ fieldA (encode i) = i.operandA := by
  refine ⟨?_, ?_, ?_, ?_⟩ <;>
  · apply BitVec.eq_of_getLsbD_eq
    intro k hk
    simp only [fieldOp, fieldRsv, fieldB, fieldA, BitVec.getLsbD_extractLsb', encode_getLsbD]
    grind

theorem opcodeOf_opcodeBits (o : Opcode) : opcodeOf (opcodeBits o) = some o := by
  cases o <;> rfl

end Sys2Proof
end

