-- ==== Sys2Proof/Laws/Ops.lean ====
section
/-! SUPPORT. What the shared operations can do, said once each: the operand forms, the address decomposer,
the frame allocator, the counters, the three paths of TRANSLATE, the end of a command, and the step. -/
namespace Sys2Proof.Machine
open Sys2Proof

/-! ### Operands -/

theorem pageOperand_cases (c : Config) (a : OperandA) :
    (a.toNat < c.numPages ∧ pageOperand c a = .ok a.toNat) ∨
    (c.numPages ≤ a.toNat ∧ pageOperand c a = .error .outOfRange) := by
  by_cases h : a.toNat < c.numPages
  · exact .inl ⟨h, by simp [pageOperand, pageInRange, h]⟩
  · exact .inr ⟨Nat.not_lt.mp h, by simp [pageOperand, pageInRange, h]⟩

theorem frameOperand_cases (c : Config) (b : FrameNo) :
    (b.toNat < c.frameLimit ∧ frameOperand c b = .ok b) ∨
    (c.frameLimit ≤ b.toNat ∧ frameOperand c b = .error .outOfRange) := by
  by_cases h : b.toNat < c.frameLimit
  · exact .inl ⟨h, by simp [frameOperand, frameInRange, h]⟩
  · exact .inr ⟨Nat.not_lt.mp h, by simp [frameOperand, frameInRange, h]⟩

theorem offsetOperand_cases (c : Config) (a : OperandA) :
    (a.toNat < c.pageSize ∧ offsetOperand c a = .ok a.toNat) ∨
    (c.pageSize ≤ a.toNat ∧ offsetOperand c a = .error .outOfRange) := by
  by_cases h : a.toNat < c.pageSize
  · exact .inl ⟨h, by simp [offsetOperand, offsetInRange, h]⟩
  · exact .inr ⟨Nat.not_lt.mp h, by simp [offsetOperand, offsetInRange, h]⟩

theorem slotOperand_cases (c : Config) (a : OperandA) :
    (a.toNat < c.tlbCap ∧ slotOperand c a = .ok a.toNat) ∨
    (c.tlbCap ≤ a.toNat ∧ slotOperand c a = .error .outOfRange) := by
  by_cases h : a.toNat < c.tlbCap
  · exact .inl ⟨h, by simp [slotOperand, slotInRange, h]⟩
  · exact .inr ⟨Nat.not_lt.mp h, by simp [slotOperand, slotInRange, h]⟩

theorem selectorOperand_cases (a : OperandA) :
    (a.toNat ≤ 5 ∧ selectorOperand a = .ok a.toNat) ∨
    (6 ≤ a.toNat ∧ selectorOperand a = .error .outOfRange) := by
  by_cases h : a.toNat ≤ 5
  · exact .inl ⟨h, by simp [selectorOperand, selectorInRange, h]⟩
  · exact .inr ⟨by omega, by simp [selectorOperand, selectorInRange, h]⟩

/-! ### Address decomposer -/

theorem decompose_page (c : Config) (la : OperandA) :
    (decompose c la).1 = la.toNat / c.pageSize % c.numPages := by
  simp [decompose, Config.pageSize, Config.numPages, Nat.shiftRight_eq_div_pow]

theorem decompose_offset (c : Config) (la : OperandA) :
    (decompose c la).2 = la.toNat % c.pageSize := by
  simp [decompose, Config.pageSize]

theorem decompose_page_lt (c : Config) (la : OperandA) : (decompose c la).1 < c.numPages := by
  rw [decompose_page]
  exact Nat.mod_lt _ (numPages_pos c)

theorem decompose_offset_lt (c : Config) (la : OperandA) : (decompose c la).2 < c.pageSize := by
  rw [decompose_offset]
  exact Nat.mod_lt _ (pageSize_pos c)

/-! ### Results -/

theorem res0OfNat_small {v : Nat} (h : v < 2 ^ 32) : res0OfNat v = BitVec.ofNat 32 v :=
  if_pos h

theorem res1OfNat_small {v : Nat} (h : v < 2 ^ 16) : res1OfNat v = BitVec.ofNat 16 v :=
  if_pos h

theorem res0OfNat_frame (f : FrameNo) : res0OfNat f.toNat = f.setWidth 32 := by
  rw [res0OfNat_small (by omega)]
  apply BitVec.eq_of_toNat_eq
  simp

theorem sat_le (c : Config) (x : Nat) : sat c x ≤ c.cntMax := Nat.min_le_right _ _

theorem sat_le_self (c : Config) (x : Nat) : sat c x ≤ x := Nat.min_le_left _ _

theorem sat_mono (c : Config) {x y : Nat} (h : x ≤ y) : sat c x ≤ sat c y := by
  simp only [sat]; omega

/-! ### Frame allocator -/

/-- Everything `FrameAlloc` can do (43_frames.md R201, R203). -/
theorem frameAlloc_cases (s : State) :
    (s.freeNext.toNat < s.cfg.frameLimit ∧
      frameAlloc s = ⟨{ s with freeNext := s.freeNext + 1 }, s.freeNext, false⟩) ∨
    (s.cfg.frameLimit ≤ s.freeNext.toNat ∧
      frameAlloc s = ⟨frameShootdown
        { s with victim := BitVec.ofNat 16 ((s.victim.toNat + 1) % s.cfg.frameLimit) } s.victim,
        s.victim, true⟩) := by
  by_cases h : s.freeNext.toNat < s.cfg.frameLimit
  · exact .inl ⟨h, by simp [frameAlloc, h]⟩
  · exact .inr ⟨Nat.not_lt.mp h, by simp [frameAlloc, h]⟩

@[simp] theorem frameAlloc_cfg (s : State) : (frameAlloc s).st.cfg = s.cfg := by
  rcases frameAlloc_cases s with ⟨-, h⟩ | ⟨-, h⟩ <;> simp [h]
@[simp] theorem frameAlloc_frameStore (s : State) : (frameAlloc s).st.frame = s.frame := by
  rcases frameAlloc_cases s with ⟨-, h⟩ | ⟨-, h⟩ <;> simp [h]
@[simp] theorem frameAlloc_hits (s : State) : (frameAlloc s).st.hits = s.hits := by
  rcases frameAlloc_cases s with ⟨-, h⟩ | ⟨-, h⟩ <;> simp [h]
@[simp] theorem frameAlloc_faults (s : State) : (frameAlloc s).st.faults = s.faults := by
  rcases frameAlloc_cases s with ⟨-, h⟩ | ⟨-, h⟩ <;> simp [h]
@[simp] theorem frameAlloc_lookups (s : State) : (frameAlloc s).st.lookups = s.lookups := by
  rcases frameAlloc_cases s with ⟨-, h⟩ | ⟨-, h⟩ <;> simp [h]
@[simp] theorem frameAlloc_draw (s : State) : (frameAlloc s).st.draw = s.draw := by
  rcases frameAlloc_cases s with ⟨-, h⟩ | ⟨-, h⟩ <;> simp [h]
@[simp] theorem frameAlloc_inputs (s : State) : (frameAlloc s).st.inputs = s.inputs := by
  rcases frameAlloc_cases s with ⟨-, h⟩ | ⟨-, h⟩ <;> simp [h]
@[simp] theorem frameAlloc_response (s : State) : (frameAlloc s).st.response = s.response := by
  rcases frameAlloc_cases s with ⟨-, h⟩ | ⟨-, h⟩ <;> simp [h]

/-! ### TRANSLATE's paths -/

/-- The tentative state of the page-fault path once the page is read (44_translate.md R243). -/
def faultState (s : State) (p : Nat) : State :=
  let a := frameAlloc s
  { frameWrite a.st a.frame (storePage s.cfg p) with
    pt := ptSet a.st.pt p a.frame
    tlb := (tlbInsert s.cfg.tlbCap a.st.tlb p a.frame).tlb }

/-- Everything the state machine of TRANSLATE can settle (44_translate.md R240 to R243, R248). -/
theorem resolve_cases (s : State) (p : Nat) :
    (∃ f, tlbLookup s.tlb p = some f ∧ resolve s p = .ok ⟨s, f, true, false, false⟩) ∨
    (∃ f, tlbLookup s.tlb p = none ∧ ptLookup s.pt p = some f ∧
      resolve s p = .ok ⟨{ s with tlb := (tlbInsert s.cfg.tlbCap s.tlb p f).tlb }, f, false, false, false⟩) ∨
    (tlbLookup s.tlb p = none ∧ ptLookup s.pt p = none ∧ (p + 1) * s.cfg.pageSize ≤ s.cfg.storeLen ∧
      resolve s p = .ok ⟨faultState s p, (frameAlloc s).frame, false, true, (frameAlloc s).reclaimed⟩) ∨
    (tlbLookup s.tlb p = none ∧ ptLookup s.pt p = none ∧ s.cfg.storeLen < (p + 1) * s.cfg.pageSize ∧
      resolve s p = .error .storeReadError) := by
  unfold resolve
  cases h1 : tlbLookup s.tlb p with
  | some f => exact .inl ⟨f, rfl, rfl⟩
  | none =>
    cases h2 : ptLookup s.pt p with
    | some f => exact .inr (.inl ⟨f, rfl, rfl, rfl⟩)
    | none =>
      rcases storeRead_cases s.cfg p with ⟨h, e⟩ | ⟨h, e⟩
      · refine .inr (.inr (.inl ⟨rfl, rfl, h, ?_⟩))
        simp [resolveFault, e, bind, Except.bind, faultState, ptInsert]
      · refine .inr (.inr (.inr ⟨rfl, rfl, h, ?_⟩))
        simp [resolveFault, e, bind, Except.bind]

/-! ### The end of a command, and the step -/

theorem complete_ok (s t : State) (r : Reply) : complete s (.ok (t, r)) = .next (answer t (okWord r)) := rfl

theorem complete_error (s : State) (e : XbError) : complete s (.error e) = .next (raise e s) := rfl

/-- A command always ends with a response, its own or an error's (60_exceptions.md R301, R307). -/
theorem complete_cases (s : State) (r : Except XbError (State × Reply)) :
    (∃ t reply, r = .ok (t, reply) ∧ complete s r = .next (answer t (okWord reply))) ∨
    (∃ e, r = .error e ∧ complete s r = .next (raise e s)) := by
  cases r with
  | ok x => exact .inl ⟨x.1, x.2, rfl, rfl⟩
  | error e => exact .inr ⟨e, rfl, rfl⟩

/-- Everything a step that answers a next state can do. -/
theorem step_cases {s t : State} (h : step s = .next t) :
    s.cfg.WellFormed ∧
    ((s.inputs = [] ∧ t = s) ∨
     (∃ w rest i, s.inputs = .command w :: rest ∧ decodeWord w = .ok i ∧
        exec i { s with inputs := rest } = .next t) ∨
     (∃ w rest r, s.inputs = .command w :: rest ∧ decodeWord w = .error r ∧
        t = raise .illegalCommand { s with inputs := rest }) ∨
     (∃ rest, s.inputs = .reset :: rest ∧ t = applyReset { s with inputs := rest })) := by
  unfold step at h
  split at h
  · rename_i hc
    refine ⟨hc, ?_⟩
    unfold serve at h
    split at h
    · rename_i e
      exact .inl ⟨e, by simpa using h.symm⟩
    · rename_i w rest e
      unfold answerRequest at h
      split at h
      · rename_i i hd
        exact .inr (.inl ⟨w, rest, i, e, hd, h⟩)
      · rename_i r hd
        exact .inr (.inr (.inl ⟨w, rest, r, e, hd, by simpa using h.symm⟩))
    · cases h
    · rename_i rest e
      exact .inr (.inr (.inr ⟨rest, e, by simpa using h.symm⟩))
  · cases h

end Sys2Proof.Machine
end

