-- ==== Sys2Proof/Laws/Exec.lean ====
section
/-! SUPPORT. Everything each command can do: one inversion lemma per command, to cite instead of unfolding
its meaning. -/
namespace Sys2Proof.Machine
open Sys2Proof

@[simp] theorem faultState_cfg (s : State) (p : Nat) : (faultState s p).cfg = s.cfg := by
  simp [faultState]
@[simp] theorem faultState_freeNext (s : State) (p : Nat) :
    (faultState s p).freeNext = (frameAlloc s).st.freeNext := rfl
@[simp] theorem faultState_victim (s : State) (p : Nat) :
    (faultState s p).victim = (frameAlloc s).st.victim := rfl
@[simp] theorem faultState_pt (s : State) (p : Nat) :
    (faultState s p).pt = ptSet (frameAlloc s).st.pt p (frameAlloc s).frame := rfl
@[simp] theorem faultState_tlb (s : State) (p : Nat) :
    (faultState s p).tlb = (tlbInsert s.cfg.tlbCap (frameAlloc s).st.tlb p (frameAlloc s).frame).tlb := rfl
@[simp] theorem faultState_frame (s : State) (p : Nat) :
    (faultState s p).frame =
      Memory.writeBlock s.frame (physAddr s.cfg (frameAlloc s).frame 0) (storePage s.cfg p) := by
  simp [faultState]
@[simp] theorem faultState_hits (s : State) (p : Nat) : (faultState s p).hits = s.hits := by
  simp [faultState]
@[simp] theorem faultState_faults (s : State) (p : Nat) : (faultState s p).faults = s.faults := by
  simp [faultState]
@[simp] theorem faultState_lookups (s : State) (p : Nat) : (faultState s p).lookups = s.lookups := by
  simp [faultState]
@[simp] theorem faultState_draw (s : State) (p : Nat) : (faultState s p).draw = s.draw := by
  simp [faultState]
@[simp] theorem faultState_inputs (s : State) (p : Nat) : (faultState s p).inputs = s.inputs := by
  simp [faultState]
@[simp] theorem faultState_response (s : State) (p : Nat) : (faultState s p).response = s.response := by
  simp [faultState]

/-- A TRANSLATE whose path is settled: it reads the byte and counts, or the frame is out of range
(44_translate.md R244 to R247). -/
theorem exec_translate_of_resolve {la : OperandA} {s : State} {r : Resolution}
    (h : resolve s (decompose s.cfg la).1 = .ok r) (hc : r.st.cfg = s.cfg) :
    exec (.translate la) s =
      if r.frame.toNat < s.cfg.frameLimit then
        .next (answer (countLookup r.st r.hit r.fault) (okWord
          { hit := r.hit, fault := r.fault, evict := r.evict
            res0 := res0OfNat (physAddr s.cfg r.frame (decompose s.cfg la).2)
            res1 := sext16 (memRead r.st (physAddr s.cfg r.frame (decompose s.cfg la).2)) }))
      else .next (raise .outOfRange s) := by
  have ho := decompose_offset_lt s.cfg la
  show execTranslate la s = _
  unfold execTranslate
  by_cases hf : r.frame.toNat < s.cfg.frameLimit
  · rw [if_pos hf]
    simp only [h, bind, Except.bind]
    rw [frameRead_ok (by rw [hc]; exact hf) (by rw [hc]; exact ho), hc]
    rfl
  · rw [if_neg hf]
    simp only [h, bind, Except.bind]
    rw [frameRead_error (.inl (by rw [hc]; omega))]
    rfl

/-- Everything TRANSLATE can do (44_translate.md R241 to R248). -/
theorem exec_translate_cases (la : OperandA) (s : State) :
    (∃ r, resolve s (decompose s.cfg la).1 = .ok r ∧ r.st.cfg = s.cfg ∧ r.frame.toNat < s.cfg.frameLimit ∧
      exec (.translate la) s = .next (answer (countLookup r.st r.hit r.fault) (okWord
        { hit := r.hit, fault := r.fault, evict := r.evict
          res0 := res0OfNat (physAddr s.cfg r.frame (decompose s.cfg la).2)
          res1 := sext16 (memRead r.st (physAddr s.cfg r.frame (decompose s.cfg la).2)) }))) ∨
    (∃ r, resolve s (decompose s.cfg la).1 = .ok r ∧ s.cfg.frameLimit ≤ r.frame.toNat ∧
      exec (.translate la) s = .next (raise .outOfRange s)) ∨
    (resolve s (decompose s.cfg la).1 = .error .storeReadError ∧
      exec (.translate la) s = .next (raise .storeReadError s)) := by
  by_cases hr : resolve s (decompose s.cfg la).1 = .error .storeReadError
  · refine .inr (.inr ⟨hr, ?_⟩)
    show execTranslate la s = _
    simp only [execTranslate, hr]
    rfl
  · obtain ⟨r, h, hc⟩ : ∃ r, resolve s (decompose s.cfg la).1 = .ok r ∧ r.st.cfg = s.cfg := by
      rcases resolve_cases s (decompose s.cfg la).1 with ⟨f, -, h⟩ | ⟨f, -, -, h⟩ | ⟨-, -, -, h⟩ | ⟨-, -, -, h⟩
      · exact ⟨_, h, rfl⟩
      · exact ⟨_, h, rfl⟩
      · exact ⟨_, h, faultState_cfg s _⟩
      · exact absurd h hr
    have he := exec_translate_of_resolve h hc
    by_cases hf : r.frame.toNat < s.cfg.frameLimit
    · rw [if_pos hf] at he
      exact .inl ⟨r, h, hc, hf, he⟩
    · rw [if_neg hf] at he
      exact .inr (.inl ⟨r, h, Nat.not_lt.mp hf, he⟩)

theorem exec_decode (la : OperandA) (s : State) :
    exec (.decode la) s = .next (answer s (okWord
      { res0 := res0OfNat (decompose s.cfg la).1, res1 := res1OfNat (decompose s.cfg la).2 })) := rfl

theorem exec_tlbLookup_cases (page : OperandA) (s : State) :
    (page.toNat < s.cfg.numPages ∧ ∃ f, tlbLookup s.tlb page.toNat = some f ∧
      exec (.tlbLookup page) s = .next (answer s (okWord { hit := true, res0 := res0OfNat f.toNat }))) ∨
    (page.toNat < s.cfg.numPages ∧ tlbLookup s.tlb page.toNat = none ∧
      exec (.tlbLookup page) s = .next (answer s (okWord {}))) ∨
    (s.cfg.numPages ≤ page.toNat ∧ exec (.tlbLookup page) s = .next (raise .outOfRange s)) := by
  show _ ∨ _ ∨ (_ ∧ execTlbLookup page s = _)
  simp only [show exec (.tlbLookup page) s = execTlbLookup page s from rfl, execTlbLookup]
  rcases pageOperand_cases s.cfg page with ⟨h, e⟩ | ⟨h, e⟩ <;> simp only [e, bind, Except.bind]
  · cases hl : tlbLookup s.tlb page.toNat with
    | some f => exact .inl ⟨h, f, rfl, rfl⟩
    | none => exact .inr (.inl ⟨h, rfl, rfl⟩)
  · exact .inr (.inr ⟨h, rfl⟩)

theorem exec_tlbInsert_cases (page : OperandA) (f : FrameNo) (s : State) :
    (page.toNat < s.cfg.numPages ∧ f.toNat < s.cfg.frameLimit ∧
      exec (.tlbInsert page f) s = .next (answer
        { s with tlb := (tlbInsert s.cfg.tlbCap s.tlb page.toNat f).tlb }
        (okWord (tlbInsertReply (tlbInsert s.cfg.tlbCap s.tlb page.toNat f))))) ∨
    ((s.cfg.numPages ≤ page.toNat ∨ s.cfg.frameLimit ≤ f.toNat) ∧
      exec (.tlbInsert page f) s = .next (raise .outOfRange s)) := by
  simp only [show exec (.tlbInsert page f) s = execTlbInsert page f s from rfl, execTlbInsert]
  rcases pageOperand_cases s.cfg page with ⟨h, e⟩ | ⟨h, e⟩ <;>
    rcases frameOperand_cases s.cfg f with ⟨h2, e2⟩ | ⟨h2, e2⟩ <;> simp only [e, e2, bind, Except.bind]
  · exact .inl ⟨h, h2, rfl⟩
  · exact .inr ⟨.inr h2, rfl⟩
  · exact .inr ⟨.inl h, rfl⟩
  · exact .inr ⟨.inl h, rfl⟩

theorem exec_tlbRead_cases (index : OperandA) (s : State) :
    (index.toNat < s.cfg.tlbCap ∧ ∃ e, s.tlb[index.toNat]? = some e ∧
      exec (.tlbRead index) s = .next (answer s (okWord
        { hit := true, res0 := res0OfNat e.page, res1 := e.frame }))) ∨
    (index.toNat < s.cfg.tlbCap ∧ s.tlb[index.toNat]? = none ∧
      exec (.tlbRead index) s = .next (answer s (okWord {}))) ∨
    (s.cfg.tlbCap ≤ index.toNat ∧ exec (.tlbRead index) s = .next (raise .outOfRange s)) := by
  simp only [show exec (.tlbRead index) s = execTlbRead index s from rfl, execTlbRead]
  rcases slotOperand_cases s.cfg index with ⟨h, e⟩ | ⟨h, e⟩ <;> simp only [e, bind, Except.bind]
  · cases hl : s.tlb[index.toNat]? with
    | some f => exact .inl ⟨h, f, rfl, rfl⟩
    | none => exact .inr (.inl ⟨h, rfl, rfl⟩)
  · exact .inr (.inr ⟨h, rfl⟩)

theorem exec_ptLookup_cases (page : OperandA) (s : State) :
    (page.toNat < s.cfg.numPages ∧ ∃ f, ptLookup s.pt page.toNat = some f ∧
      exec (.ptLookup page) s = .next (answer s (okWord { hit := true, res0 := res0OfNat f.toNat }))) ∨
    (page.toNat < s.cfg.numPages ∧ ptLookup s.pt page.toNat = none ∧
      exec (.ptLookup page) s = .next (answer s (okWord {}))) ∨
    (s.cfg.numPages ≤ page.toNat ∧ exec (.ptLookup page) s = .next (raise .outOfRange s)) := by
  simp only [show exec (.ptLookup page) s = execPtLookup page s from rfl, execPtLookup]
  rcases pageOperand_cases s.cfg page with ⟨h, e⟩ | ⟨h, e⟩ <;> simp only [e, bind, Except.bind]
  · cases hl : ptLookup s.pt page.toNat with
    | some f => exact .inl ⟨h, f, rfl, rfl⟩
    | none => exact .inr (.inl ⟨h, rfl, rfl⟩)
  · exact .inr (.inr ⟨h, rfl⟩)

theorem exec_ptInsert_cases (page : OperandA) (f : FrameNo) (s : State) :
    (page.toNat < s.cfg.numPages ∧ f.toNat < s.cfg.frameLimit ∧
      exec (.ptInsert page f) s = .next (answer { s with pt := ptSet s.pt page.toNat f }
        (okWord (match ptLookup s.pt page.toNat with
          | some g => { hit := true, res0 := res0OfNat g.toNat }
          | none => {})))) ∨
    ((s.cfg.numPages ≤ page.toNat ∨ s.cfg.frameLimit ≤ f.toNat) ∧
      exec (.ptInsert page f) s = .next (raise .outOfRange s)) := by
  simp only [show exec (.ptInsert page f) s = execPtInsert page f s from rfl, execPtInsert, ptInsert]
  rcases pageOperand_cases s.cfg page with ⟨h, e⟩ | ⟨h, e⟩ <;>
    rcases frameOperand_cases s.cfg f with ⟨h2, e2⟩ | ⟨h2, e2⟩ <;> simp only [e, e2, bind, Except.bind]
  · refine .inl ⟨h, h2, ?_⟩
    cases ptLookup s.pt page.toNat <;> rfl
  · exact .inr ⟨.inr h2, rfl⟩
  · exact .inr ⟨.inl h, rfl⟩
  · exact .inr ⟨.inl h, rfl⟩

theorem exec_frameAlloc (s : State) :
    exec .frameAlloc s = .next (answer (frameAlloc s).st (okWord
      { evict := (frameAlloc s).reclaimed, res0 := res0OfNat (frameAlloc s).frame.toNat })) := rfl

theorem exec_frameLoad_cases (f : FrameNo) (page : OperandA) (s : State) :
    (page.toNat < s.cfg.numPages ∧ f.toNat < s.cfg.frameLimit ∧
      (page.toNat + 1) * s.cfg.pageSize ≤ s.cfg.storeLen ∧
      exec (.frameLoad f page) s = .next (answer (frameWrite s f (storePage s.cfg page.toNat)) (okWord {}))) ∨
    (page.toNat < s.cfg.numPages ∧ f.toNat < s.cfg.frameLimit ∧
      s.cfg.storeLen < (page.toNat + 1) * s.cfg.pageSize ∧
      exec (.frameLoad f page) s = .next (raise .storeReadError s)) ∨
    ((s.cfg.numPages ≤ page.toNat ∨ s.cfg.frameLimit ≤ f.toNat) ∧
      exec (.frameLoad f page) s = .next (raise .outOfRange s)) := by
  simp only [show exec (.frameLoad f page) s = execFrameLoad f page s from rfl, execFrameLoad]
  rcases pageOperand_cases s.cfg page with ⟨h, e⟩ | ⟨h, e⟩ <;>
    rcases frameOperand_cases s.cfg f with ⟨h2, e2⟩ | ⟨h2, e2⟩ <;> simp only [e, e2, bind, Except.bind]
  · rcases storeRead_cases s.cfg page.toNat with ⟨h3, e3⟩ | ⟨h3, e3⟩ <;> simp only [e3]
    · exact .inl ⟨h, h2, h3, rfl⟩
    · exact .inr (.inl ⟨h, h2, h3, rfl⟩)
  · exact .inr (.inr ⟨.inr h2, rfl⟩)
  · exact .inr (.inr ⟨.inl h, rfl⟩)
  · exact .inr (.inr ⟨.inl h, rfl⟩)

theorem exec_frameRead_cases (f : FrameNo) (offset : OperandA) (s : State) :
    (offset.toNat < s.cfg.pageSize ∧ f.toNat < s.cfg.frameLimit ∧
      exec (.frameRead f offset) s = .next (answer s (okWord
        { res1 := sext16 (memRead s (physAddr s.cfg f offset.toNat)) }))) ∨
    ((s.cfg.pageSize ≤ offset.toNat ∨ s.cfg.frameLimit ≤ f.toNat) ∧
      exec (.frameRead f offset) s = .next (raise .outOfRange s)) := by
  simp only [show exec (.frameRead f offset) s = execFrameRead f offset s from rfl, execFrameRead]
  rcases offsetOperand_cases s.cfg offset with ⟨h, e⟩ | ⟨h, e⟩ <;>
    rcases frameOperand_cases s.cfg f with ⟨h2, e2⟩ | ⟨h2, e2⟩ <;> simp only [e, e2, bind, Except.bind]
  · rw [frameRead_ok h2 h]
    exact .inl ⟨h, h2, rfl⟩
  · exact .inr ⟨.inr h2, rfl⟩
  · exact .inr ⟨.inl h, rfl⟩
  · exact .inr ⟨.inl h, rfl⟩

theorem exec_statsRead_cases (sel : OperandA) (s : State) :
    (sel.toNat ≤ 5 ∧ exec (.statsRead sel) s = .next (answer s (okWord
      { res0 := res0OfNat (statusRegister s sel.toNat) }))) ∨
    (6 ≤ sel.toNat ∧ exec (.statsRead sel) s = .next (raise .outOfRange s)) := by
  simp only [show exec (.statsRead sel) s = execStatsRead sel s from rfl, execStatsRead]
  rcases selectorOperand_cases sel with ⟨h, e⟩ | ⟨h, e⟩ <;> simp only [e, bind, Except.bind]
  · exact .inl ⟨h, rfl⟩
  · exact .inr ⟨h, rfl⟩

end Sys2Proof.Machine
end

