-- ==== Sys2Proof/Laws/PerInstr.lean ====
section
/-! SUPPORT. Statements made for every command, one lemma per constructor. -/
namespace Sys2Proof.Laws
open Sys2Proof

/-- The encoded command passes the three legality checks of 30_encoding.md R105. -/
def EncodeIsLegal.Statement (i : Instr) : Prop :=
  opcodeOf (fieldOp (encode i)) = some i.opcode ∧ fieldRsv (encode i) = 0 ∧
    unusedOperandSet i.opcode (fieldA (encode i)) (fieldB (encode i)) = false

/-- The word of a command is legal when the command puts zero in the fields its opcode does not use. -/
theorem encodeIsLegal_of_unused {i : Instr} (h : unusedOperandSet i.opcode i.operandA i.operandB = false) :
    EncodeIsLegal.Statement i := by
  obtain ⟨ho, hr, hb, ha⟩ := encode_fields i
  exact ⟨by rw [ho, opcodeOf_opcodeBits], hr, by rw [ha, hb, h]⟩

theorem EncodeIsLegal.translate (la : OperandA) : EncodeIsLegal.Statement (.translate la) :=
  encodeIsLegal_of_unused rfl

theorem EncodeIsLegal.decode (la : OperandA) : EncodeIsLegal.Statement (.decode la) :=
  encodeIsLegal_of_unused rfl

theorem EncodeIsLegal.tlbLookup (page : OperandA) : EncodeIsLegal.Statement (.tlbLookup page) :=
  encodeIsLegal_of_unused rfl

theorem EncodeIsLegal.tlbInsert (page : OperandA) (frame : FrameNo) : EncodeIsLegal.Statement (.tlbInsert page frame) :=
  encodeIsLegal_of_unused rfl

theorem EncodeIsLegal.tlbRead (index : OperandA) : EncodeIsLegal.Statement (.tlbRead index) :=
  encodeIsLegal_of_unused rfl

theorem EncodeIsLegal.ptLookup (page : OperandA) : EncodeIsLegal.Statement (.ptLookup page) :=
  encodeIsLegal_of_unused rfl

theorem EncodeIsLegal.ptInsert (page : OperandA) (frame : FrameNo) : EncodeIsLegal.Statement (.ptInsert page frame) :=
  encodeIsLegal_of_unused rfl

theorem EncodeIsLegal.frameAlloc : EncodeIsLegal.Statement .frameAlloc :=
  encodeIsLegal_of_unused rfl

theorem EncodeIsLegal.frameLoad (frame : FrameNo) (page : OperandA) : EncodeIsLegal.Statement (.frameLoad frame page) :=
  encodeIsLegal_of_unused rfl

theorem EncodeIsLegal.frameRead (frame : FrameNo) (offset : OperandA) : EncodeIsLegal.Statement (.frameRead frame offset) :=
  encodeIsLegal_of_unused rfl

theorem EncodeIsLegal.statsRead (sel : OperandA) : EncodeIsLegal.Statement (.statsRead sel) :=
  encodeIsLegal_of_unused rfl

end Sys2Proof.Laws
end

