-- ==== Sys2Proof/Tests/Slice0.lean ====
section
/-! SUPPORT. Tests. Expected values are those of spec/95_test_vectors.md (named by its section and row), of the
encodings of 30_encoding.md R116 and R118, or computed by hand from the rules named. The `test_meets_`
theorems show, for each statement with hypotheses, a state and operands that meet them. -/
namespace Sys2Proof.Machine.Tests
open Sys2Proof Sys2Proof.Machine

/-! ### Configurations and states -/

/-- The first `n` bytes of the test store `S_SUM` of 95_test_vectors.md section 0. -/
def sSum (n : Nat) : List Byte := (List.range n).map fun i => BitVec.ofNat 8 (i / 256 + i)

/-- The defaults with `S_SUM/n`. -/
def dflt (n : Nat) : Config := { store := sSum n }

/-- A small configuration: pages of 4 bytes, pages 0 to 3, of which page 3 is missing from the store, two TLB
entries and two frames. Byte `o` of page `p` is `16 p + o + 0x78`. -/
def tiny : Config where
  offsetBits := 2
  pnBits := 2
  tlbCap := 2
  frameSlots := 4
  frameLimit := 2
  cntWidth := 32
  store := [0x78, 0x79, 0x7A, 0x7B, 0x88, 0x89, 0x8A, 0x8B, 0x98, 0x99, 0x9A, 0x9B]

/-- After TRANSLATE of page 1 from reset: page 1 in frame 0. -/
def one : State :=
  { State.boot tiny with
    tlb := [⟨1, 0⟩], pt := [(1, 0)], freeNext := 1, faults := 1, lookups := 1
    frame := [(0, 0x88), (1, 0x89), (2, 0x8A), (3, 0x8B)] }

/-- `one` with its TLB emptied: page 1 is in the page table only. -/
def oneCold : State := { one with tlb := [] }

/-- After TRANSLATE of pages 1, 2 and 0 from reset: page 0 in frame 0, page 2 in frame 1, the victim is frame 1,
the TLB is full. -/
def full : State :=
  { State.boot tiny with
    tlb := [⟨2, 1⟩, ⟨0, 0⟩], pt := [(0, 0), (2, 1)], freeNext := 2, victim := 1, faults := 3, lookups := 3
    frame := [(0, 0x78), (1, 0x79), (2, 0x7A), (3, 0x7B), (4, 0x98), (5, 0x99), (6, 0x9A), (7, 0x9B)] }

/-- The response a command gives, if it completes. -/
def respOf (i : Instr) (s : State) : Option Word64 :=
  match exec i s with
  | .next t => t.response
  | _ => none

/-- A part of the state a command leaves, if it completes. -/
def after {α : Type} (f : State → α) (i : Instr) (s : State) : Option α :=
  match exec i s with
  | .next t => some (f t)
  | _ => none

/-- The response to a request word, as the first after the inputs of `s`. -/
def reply (s : State) (w : Nat) : Option Word64 :=
  match step (s.withFetchWord 64 w) with
  | .next t => t.response
  | _ => none

theorem legal_one : one.Legal := by constructor <;> decide
theorem legal_oneCold : oneCold.Legal := by constructor <;> decide
theorem legal_full : full.Legal := by constructor <;> decide

/-- A page of four bytes, byte by byte. -/
theorem holds_of_bytes {s : State} {f : FrameNo} {p : Nat} (hs : s.cfg.pageSize = 4)
    (h : ∀ o ∈ [0, 1, 2, 3], (s.cfg.store[p * s.cfg.pageSize + o]?).isSome ∧
      Memory.get? s.frame (physAddr s.cfg f o) = s.cfg.store[p * s.cfg.pageSize + o]?) : frameHoldsPage s f p := by
  intro o ho
  rw [hs] at ho
  obtain ⟨h1, h2⟩ := h o (by simp; omega)
  obtain ⟨b, hb⟩ := Option.isSome_iff_exists.mp h1
  exact ⟨b, hb, h2.trans hb⟩

theorem coherent_one : Coherent one where
  tlb_agrees := by decide
  frames_allocated := by decide
  frames_distinct := by decide
  frames_mapped := by decide
  frames_hold := by simpa [one] using holds_of_bytes (s := one) (f := 0) (p := 1) (by decide) (by decide)
  tlb_length := by decide
  tlb_unique := by decide
  victim_zero := by decide
theorem coherent_full : Coherent full where
  tlb_agrees := by decide
  frames_allocated := by decide
  frames_distinct := by decide
  frames_mapped := by decide
  frames_hold := by
    simpa [full] using And.intro (holds_of_bytes (s := full) (f := 0) (p := 0) (by decide) (by decide))
      (holds_of_bytes (s := full) (f := 1) (p := 2) (by decide) (by decide))
  tlb_length := by decide
  tlb_unique := by decide
  victim_zero := by decide

/-! ### WellFormed: each range check refuses an operand just out of its range (R102, R106) -/

theorem test_wellFormed_lookup_page : wellFormed tiny (.tlbLookup 4) = false ∧ wellFormed tiny (.tlbLookup 3) = true := by decide
theorem test_wellFormed_insert_page : wellFormed tiny (.tlbInsert 4 0) = false ∧ wellFormed tiny (.ptInsert 4 0) = false := by decide
theorem test_wellFormed_insert_frame : wellFormed tiny (.tlbInsert 0 2) = false ∧ wellFormed tiny (.ptInsert 0 2) = false := by decide
theorem test_wellFormed_slot : wellFormed tiny (.tlbRead 2) = false ∧ wellFormed tiny (.tlbRead 1) = true := by decide
theorem test_wellFormed_pt_page : wellFormed tiny (.ptLookup 0x10000) = false := by decide
theorem test_wellFormed_load : wellFormed tiny (.frameLoad 2 0) = false ∧ wellFormed tiny (.frameLoad 0 4) = false := by decide
theorem test_wellFormed_read : wellFormed tiny (.frameRead 2 0) = false ∧ wellFormed tiny (.frameRead 0 4) = false := by decide
theorem test_wellFormed_selector : wellFormed tiny (.statsRead 6) = false ∧ wellFormed tiny (.statsRead 5) = true := by decide
/-- Conditions of R10, each broken alone. -/
theorem test_config_conditions :
    ([{ tiny with offsetBits := 0 }, { tiny with offsetBits := 17, pnBits := 1 }, { tiny with pnBits := 0 },
      { tiny with pnBits := 31 }, { tiny with tlbCap := 0 }, { tiny with frameLimit := 0 },
      { tiny with frameLimit := 5 }, { tiny with frameSlots := 65537 },
      { tiny with frameSlots := 65536, frameLimit := 65536 }, { tiny with tlbCap := 65536 }] : List Config).map
      (fun c => decide c.WellFormed) = List.replicate 10 false ∧
    tiny.WellFormed ∧ Config.defaults.WellFormed := by decide

/-! ### Decoding: every constructor from a word written out from its row of R116, and R105's refusals -/

/-- `{0x1, 12'0, 16'0, la}` (R118). -/
theorem test_decode_translate : decodeWord 0x10000000ABCD0004 = .ok (.translate 0xABCD0004) := by decide
/-- `{0x2, 12'0, 16'0, la}` (L2.1 #5). -/
theorem test_decode_decode : decodeWord 0x20000000ABCD1234 = .ok (.decode 0xABCD1234) := by decide
/-- `{0x3, 12'0, 16'0, page}` (L2.3 #24). -/
theorem test_decode_tlbLookup : decodeWord 0x3000000000000010 = .ok (.tlbLookup 16) := by decide
/-- `{0x4, 12'0, frame, page}` (L2.3 #28). -/
theorem test_decode_tlbInsert : decodeWord 0x4000007F00000011 = .ok (.tlbInsert 17 127) := by decide
/-- `{0x5, 12'0, 16'0, index}` (L2.3 #22). -/
theorem test_decode_tlbRead : decodeWord 0x500000000000000F = .ok (.tlbRead 15) := by decide
/-- `{0x6, 12'0, 16'0, page}` (L2.4 #6). -/
theorem test_decode_ptLookup : decodeWord 0x60000000000000FF = .ok (.ptLookup 255) := by decide
/-- `{0x7, 12'0, frame, page}` (L2.4 #4). -/
theorem test_decode_ptInsert : decodeWord 0x7000000500000009 = .ok (.ptInsert 9 5) := by decide
/-- `{0x8, 12'0, 16'0, 32'0}` (R118). -/
theorem test_decode_frameAlloc : decodeWord 0x8000000000000000 = .ok .frameAlloc := by decide
/-- `{0x9, 12'0, frame, page}` (L2.5 #15). -/
theorem test_decode_frameLoad : decodeWord 0x9000000100000080 = .ok (.frameLoad 1 0x80) := by decide
/-- `{0xA, 12'0, frame, offset}` (R118). -/
theorem test_decode_frameRead : decodeWord 0xA000000200000010 = .ok (.frameRead 2 0x10) := by decide
/-- `{0xB, 12'0, 16'0, sel}` (R118). -/
theorem test_decode_statsRead : decodeWord 0xB000000000000002 = .ok (.statsRead 2) := by decide
/-- L2.7 #1 to #3, #7. -/
theorem test_decode_reserved :
    [0x0000000000000000, 0xC000000000000000, 0xD000000000000000, 0xE000000000000000, 0xF000000000000000,
      0xF001000000000000].map decodeWord =
    [.error (.reservedOpcode 0), .error (.reservedOpcode 0xC), .error (.reservedOpcode 0xD),
      .error (.reservedOpcode 0xE), .error (.reservedOpcode 0xF), .error (.reservedOpcode 0xF)] := by decide
/-- L2.7 #4 to #6, L2.1 #7, L2.5 #23. -/
theorem test_decode_fields :
    [0x1001000000000004, 0x1000000100000004, 0x8000000000000001, 0x2000000100000000, 0x8000000100000000].map decodeWord =
    [.error .reservedBits, .error .unusedOperand, .error .unusedOperand, .error .unusedOperand,
      .error .unusedOperand] := by decide
/-- The bytes of `TLB_INSERT 5, 3`, byte 0 first (R79, R118). -/
theorem test_decode_bytes : decodeBytes [0x05, 0, 0, 0, 0x03, 0, 0, 0x40] = .ok (.tlbInsert 5 3) := by decide
theorem test_decode_short : decodeBytes [0x05, 0, 0, 0, 0x03, 0, 0] = .error .notOneWord := by decide
/-- The table's numbering, the bits above `nbits` zero. -/
theorem test_decodeTableWord : decodeTableWord 64 0x4000000300000005 = some (.tlbInsert 5 3) ∧
    decodeTableWord 60 0x4000000300000005 = none := by decide

/-! ### The assembler (R116, R117) -/

theorem test_assemble_hex : assembleLine "FRAME_READ 2, 0x10 ; P".toList = .ok (some 0xA000000200000010) := by decide
theorem test_assemble_pseudo : assembleLine "STATS_VICTIM".toList = .ok (some 0xB000000000000005) := by decide
theorem test_assemble_wide : assembleLine "TLB_INSERT 5, 65536".toList = .error .operandTooWide := by decide
theorem test_assemble_program :
    assemble ["; P1".toList, "TRANSLATE 0x0004".toList, "STATS_HITS".toList] =
      .ok [0x1000000000000004, 0xB000000000000000] := by decide

/-! ### One step per test, from spec/95_test_vectors.md -/

/-- L1.7, by a step of the whole machine. -/
theorem test_translate_fault : reply (State.boot (dflt 512)) 0x1000000000000004 = some 0x0800000400000004 := by
  decide +kernel
/-- P2 step 18: TLB miss, page-table hit in a full TLB. -/
theorem test_translate_refill :
    respOf (.translate 5) { State.boot (dflt 0) with
      tlb := (List.range 16).map (fun k => ⟨k + 1, BitVec.ofNat 16 (k + 1)⟩), pt := [(0, 0)], freeNext := 17, frame := [(5, 5)] }
    = some 0x0000000500000005 := by decide
/-- L2.1 #5. -/
theorem test_decode_answer : respOf (.decode 0xABCD1234) State.reset = some 0x0000003400000012 := by decide
/-- L2.1 #9. -/
theorem test_decode_small :
    respOf (.decode 0xABC) (State.boot { offsetBits := 4, pnBits := 4 }) = some 0x0000000C0000000B := by decide
/-- L2.3 #24, #21. -/
theorem test_tlbLookup :
    respOf (.tlbLookup 16) { State.reset with tlb := [⟨15, 3⟩, ⟨16, 1⟩] } = some 0x1000000000000001 ∧
    respOf (.tlbLookup 0) { State.reset with tlb := [⟨15, 3⟩, ⟨16, 1⟩] } = some 0 := by decide
/-- L2.3 #28: a full TLB loses its oldest entry. -/
theorem test_tlbInsert_evicts :
    respOf (.tlbInsert 17 127) { State.reset with tlb := (List.range 16).map fun k => ⟨k + 1, 1⟩ } =
      some 0x0400000100000000 ∧
    after (fun t => t.tlb.map TlbEntry.page) (.tlbInsert 17 127)
      { State.reset with tlb := (List.range 16).map fun k => ⟨k + 1, 1⟩ } =
      some [2, 3, 4, 5, 6, 7, 8, 9, 10, 11, 12, 13, 14, 15, 16, 17] := by decide
/-- L2.3 #19: an insert of a present page is a no-op. -/
theorem test_tlbInsert_present :
    respOf (.tlbInsert 3 7) { State.reset with tlb := [⟨3, 3⟩] } = some 0x1000000000000003 ∧
    after State.tlb (.tlbInsert 3 7) { State.reset with tlb := [⟨3, 3⟩] } = some [⟨3, 3⟩] := by decide
/-- P3 steps 4, 5. -/
theorem test_tlbRead :
    respOf (.tlbRead 0) { State.reset with tlb := [⟨1, 1⟩, ⟨2, 0⟩] } = some 0x1000000100000001 ∧
    respOf (.tlbRead 1) { State.reset with tlb := [⟨1, 1⟩, ⟨2, 0⟩] } = some 0x1000000000000002 ∧
    respOf (.tlbRead 2) { State.reset with tlb := [⟨1, 1⟩, ⟨2, 0⟩] } = some 0 := by decide
/-- L2.4 #5, #6. -/
theorem test_ptLookup :
    respOf (.ptLookup 9) { State.reset with pt := [(9, 5)] } = some 0x1000000000000005 ∧
    respOf (.ptLookup 255) { State.reset with pt := [(9, 5)] } = some 0 := by decide
/-- L2.4 #4. -/
theorem test_ptInsert :
    respOf (.ptInsert 9 5) { State.reset with pt := [(9, 4)] } = some 0x1000000000000004 ∧
    after State.pt (.ptInsert 9 5) { State.reset with pt := [(9, 4)] } = some [(9, 5)] := by decide
/-- L2.5 #8: the reclaim removes both aliases of frame 0 in each table. -/
theorem test_frameAlloc_reclaims :
    respOf .frameAlloc { State.boot { tlbCap := 4, frameLimit := 2 } with
      tlb := [⟨5, 0⟩, ⟨6, 0⟩], pt := [(7, 0), (8, 0)], freeNext := 2 } = some 0x0400000000000000 ∧
    after (fun t => (t.tlb, t.pt, t.victim)) .frameAlloc { State.boot { tlbCap := 4, frameLimit := 2 } with
      tlb := [⟨5, 0⟩, ⟨6, 0⟩], pt := [(7, 0), (8, 0)], freeNext := 2 } = some ([], [], 1) := by decide
/-- L2.5 #6, #13: the free path, and the victim's wrap. -/
theorem test_frameAlloc_free :
    respOf .frameAlloc { State.boot { frameLimit := 2 } with freeNext := 1 } = some 1 ∧
    after State.victim .frameAlloc { State.boot { frameLimit := 2 } with freeNext := 2, victim := 1 } = some 0 := by decide
/-- By hand from R212: frame 1 of `tiny` is addresses 4 to 7; byte `o` of page 2 is `0x98 + o`. -/
theorem test_frameLoad :
    after State.frame (.frameLoad 1 2) one = some [(0, 0x88), (1, 0x89), (2, 0x8A), (3, 0x8B), (4, 0x98), (5, 0x99),
      (6, 0x9A), (7, 0x9B)] := by decide
/-- L2.7 #9, #10: out of range before the store read; a missing page. -/
theorem test_frameLoad_errors :
    respOf (.frameLoad 128 5) (State.boot (dflt 0)) = some 0x4000000000000000 ∧
    respOf (.frameLoad 0 5) (State.boot (dflt 0)) = some 0x6000000000000000 := by decide
/-- L2.5 #16, #18: address `1 * 256 + o`, sign-extended. -/
theorem test_frameRead :
    respOf (.frameRead 1 0) { State.reset with frame := [(256, 0x80), (511, 0x7F)] } = some 0x0000FF8000000000 ∧
    respOf (.frameRead 1 0xFF) { State.reset with frame := [(256, 0x80), (511, 0x7F)] } = some 0x0000007F00000000 := by decide
/-- L2.5 #22: a byte never written is the free value. -/
theorem test_frameRead_initial :
    respOf (.frameRead 0 0) State.reset = some (okWord { res1 := (Config.frameInit 0 0 0).signExtend 16 }) := rfl
/-- The counter saturation vector of L2.2, and its STATS_READ. -/
theorem test_saturation :
    after (fun t => (t.hits, t.lookups)) (.translate 4)
      { State.reset with tlb := [⟨0, 0⟩], pt := [(0, 0)], freeNext := 1, hits := 0xFFFFFFFF, lookups := 0xFFFFFFFE } =
      some (0xFFFFFFFF, 0xFFFFFFFF) := by decide
/-- P2 steps 22 to 24, L2.5 #12. -/
theorem test_statsRead :
    [0, 1, 2, 3, 4, 5].map (fun k => respOf (.statsRead k)
      { State.reset with hits := 0, faults := 17, lookups := 19, tlb := [⟨1, 1⟩], freeNext := 2, victim := 1 }) =
    [some 0, some 0x11, some 0x13, some 1, some 2, some 1] := by decide
/-- L2.6 #1: every status register reads 0 after reset. -/
theorem test_statsRead_reset :
    [0, 1, 2, 3, 4, 5].map (fun k => respOf (.statsRead k) State.reset) = List.replicate 6 (some 0) := by decide
/-- L2.6 #2. -/
theorem test_statsRead_range : respOf (.statsRead 6) State.reset = some 0x4000000000000000 := by decide
/-- The first word after reset, for every row of the opcode table with zero operands: OK, or STORE_READ_ERROR on
the empty store (R77, R247, R212). -/
theorem test_first_words :
    [0x1, 0x2, 0x3, 0x4, 0x5, 0x6, 0x7, 0x8, 0x9, 0xB].map (fun op => reply State.reset (op * 2 ^ 60)) =
    [some 0x6000000000000000, some 0, some 0, some 0, some 0, some 0, some 0, some 0, some 0x6000000000000000,
      some 0] := by decide
/-- An illegal word changes no state but the response (L2.7 #8). -/
theorem test_step_illegal : reply State.reset 0x1001000000000200 = some 0x2000000000000000 := by decide

/-! ### The hypotheses of the statements are met

One theorem per statement with hypotheses: a state and operands that meet each clause's hypotheses, at the
boundary of a range where there is one. `tiny` has 4 pages, 2 frames, 4 bytes a page, 2 TLB slots, 12 bytes of store. -/

theorem test_meets_EncodeOfDecodeIsTheWord : decodeWord 0x4000FFFFFFFFFFFF = .ok (.tlbInsert 0xFFFFFFFF 0xFFFF) := by decide

theorem test_meets_IllegalWordsAreExactlyThoseOfTheRule :
    decodeWord 0xFFFFFFFFFFFFFFFF = .error (.reservedOpcode 0xF) ∧ decodeWord 0x9800000000000000 = .error .reservedBits ∧
    decodeWord 0xB000800000000000 = .error .unusedOperand := by decide

theorem test_meets_AssemblerPlacesOperandsInTheirFields :
    assembleCommand .tlbInsert [2 ^ 32 - 1, 2 ^ 16 - 1] = .ok 0x4000FFFFFFFFFFFF ∧
    assembleCommand .translate [2 ^ 32 - 1] = .ok 0x10000000FFFFFFFF ∧
    assembleCommand .statsRead [2 ^ 32] = .error .operandTooWide ∧
    assembleCommand .frameLoad [2 ^ 16, 0] = .error .operandTooWide ∧
    assembleCommand .frameLoad [0, 2 ^ 32] = .error .operandTooWide := by decide

theorem test_meets_PseudoInstructionsAreStatsReads :
    5 < 6 ∧ assembleCommand .statsRead [5] = .ok 0xB000000000000005 := by decide

theorem test_meets_ResponseWordsReadBack :
    4 ≤ (respStatus 0x8000000000000000).toNat ∧ respRrsv 0x0001000000000000 ≠ 0 ∧ respRrsv 0x0200000000000000 ≠ 0 := by decide

theorem test_meets_ErrorsChangeNoState :
    answerRequest 0x100000000000000C full = .next (raise .storeReadError full) ∧
    answerRequest 0x3000000000000004 full = .next (raise .outOfRange full) ∧
    answerRequest 0 full = .next (raise .illegalCommand full) ∧
    respStatus (errorWord .storeReadError) ≠ 0 ∧ respStatus (errorWord .outOfRange) ≠ 0 ∧
    respStatus (errorWord .illegalCommand) ≠ 0 := ⟨rfl, rfl, rfl, by decide, by decide, by decide⟩

theorem test_meets_OutOfRangeOperandsAreAnswered :
    one.cfg.numPages ≤ (4 : OperandA).toNat ∧ one.cfg.frameLimit ≤ (2 : FrameNo).toNat ∧
    one.cfg.pageSize ≤ (4 : OperandA).toNat ∧ one.cfg.tlbCap ≤ (2 : OperandA).toNat ∧ 5 < (6 : OperandA).toNat := by decide

theorem test_meets_ChecksRunInOrder :
    opcodeOf (fieldOp 0xC000000000000000) = none ∧
    (opcodeOf (fieldOp 0x1001000100000004) = some .translate ∧ fieldRsv 0x1001000100000004 ≠ 0) ∧
    (fieldRsv 0x1000000100000004 = 0 ∧ usesB .translate = false ∧ fieldB 0x1000000100000004 ≠ 0) ∧
    (usesA .frameAlloc = false ∧ fieldA 0x8000000000000001 ≠ 0) ∧
    (opcodeOf (fieldOp 0x3000000000000003) = some .tlbLookup ∧ fieldRsv 0x3000000000000003 = 0 ∧
      usesA .tlbLookup = true ∧ fieldB 0x3000000000000003 = 0 ∧ wellFormed tiny (buildInstr .tlbLookup 3 0) = true ∧
      wellFormed tiny (buildInstr .tlbLookup 4 0) = false) := by decide

/-- Each error of ErrorsByCommand, in a legal state, beside an OK. -/
theorem test_meets_ErrorsByCommand :
    full.Legal ∧ respOf (.translate 12) full = some 0x6000000000000000 ∧
    respOf (.frameLoad 0 3) full = some 0x6000000000000000 ∧ respOf (.tlbRead 2) full = some 0x4000000000000000 ∧
    respOf (.decode 5) full = some 0x0000000100000001 :=
  ⟨legal_full, by decide, by decide, by decide, by decide⟩

theorem test_meets_XbNeverStopsItself :
    ({ one with inputs := [.reset] } : State).cfg.WellFormed ∧
    (∀ x, ({ one with inputs := [.reset] } : State).inputs.head? = some x → hostDuty x = true) ∧
    ({ one with inputs := [.command 0] } : State).cfg.WellFormed ∧
    (∀ x, ({ one with inputs := [.command 0] } : State).inputs.head? = some x → hostDuty x = true) := by
  refine ⟨by decide, ?_, by decide, ?_⟩ <;> (intro x h; cases h; rfl)

theorem test_meets_DecomposeOfValidAddresses :
    tiny.WellFormed ∧ (15 : OperandA).toNat < 2 ^ (tiny.pnBits + tiny.offsetBits) ∧
    2 ^ (tiny.pnBits + tiny.offsetBits) ≤ (16 : OperandA).toNat ∧
    decompose tiny 15 = (3, 3) ∧ decompose tiny 16 = (0, 0) := by decide

theorem test_meets_DecodeAnswersPageAndOffset : one.cfg.WellFormed ∧ respOf (.decode 15) one = some 0x0000000300000003 := by
  decide

theorem test_meets_TlbUpdatesKeepCapacityAndUniqueness :
    1 ≤ 2 ∧ full.tlb.length ≤ 2 ∧ (full.tlb.map TlbEntry.page).Nodup ∧
    runTlbUpdates 2 [.insert 3 1, .invalidateFrame 0, .insert 3 0] full.tlb = [⟨3, 1⟩] := by decide

theorem test_meets_TlbIsFifo :
    (TlbEntry.mk 2 1 :: [⟨0, 0⟩]).length = 2 ∧ (∀ e ∈ TlbEntry.mk 2 1 :: [⟨0, 0⟩], e.page ≠ 3) ∧
    1 ≤ 2 ∧ (([⟨1, 0⟩, ⟨2, 0⟩, ⟨3, 1⟩] : List TlbEntry).map TlbEntry.page).Nodup ∧
    runTlbUpdates 2 (([⟨1, 0⟩, ⟨2, 0⟩, ⟨3, 1⟩] : List TlbEntry).map fun e => .insert e.page e.frame) [] =
      [⟨2, 0⟩, ⟨3, 1⟩] := by decide

theorem test_meets_TlbInvalidateKeepsTheRestInOrder : (⟨0, 0⟩ : TlbEntry) ∈ tlbInvalidateFrame full.tlb 1 := by decide

theorem test_meets_TlbLookupAnswersTheFrame :
    full.Legal ∧ (2 : OperandA).toNat < full.cfg.numPages ∧ (⟨2, 1⟩ : TlbEntry) ∈ full.tlb ∧
    (3 : OperandA).toNat < full.cfg.numPages ∧ (∀ e ∈ full.tlb, e.page ≠ (3 : OperandA).toNat) :=
  ⟨legal_full, by decide, by decide, by decide, by decide⟩

theorem test_meets_TlbInsertAnswersAndUpdates :
    (full.Legal ∧ (2 : OperandA).toNat < full.cfg.numPages ∧ (1 : FrameNo).toNat < full.cfg.frameLimit ∧
      (⟨2, 1⟩ : TlbEntry) ∈ full.tlb) ∧
    (one.Legal ∧ (3 : OperandA).toNat < one.cfg.numPages ∧ (∀ e ∈ one.tlb, e.page ≠ (3 : OperandA).toNat) ∧
      one.tlb.length < one.cfg.tlbCap) ∧
    (full.tlb = ⟨2, 1⟩ :: [⟨0, 0⟩] ∧ (∀ e ∈ full.tlb, e.page ≠ (3 : OperandA).toNat) ∧
      full.tlb.length = full.cfg.tlbCap ∧ full.cfg.pnBits ≤ 16) :=
  ⟨⟨legal_full, by decide, by decide, by decide⟩, ⟨legal_one, by decide, by decide, by decide⟩, by decide, by decide,
    by decide, by decide⟩

theorem test_meets_TlbReadAnswersTheSlot :
    one.Legal ∧ (0 : OperandA).toNat < one.cfg.tlbCap ∧ one.tlb[(0 : OperandA).toNat]? = some ⟨1, 0⟩ ∧
    (1 : OperandA).toNat < one.cfg.tlbCap ∧ one.tlb.length ≤ (1 : OperandA).toNat :=
  ⟨legal_one, by decide, by decide, by decide, by decide⟩

theorem test_meets_PageStaysMapped :
    ∀ u ∈ [PtUpdate.insert 2 0, .invalidateFrame 1], (∀ q g, u = .insert q g → q ≠ 3) ∧ (∀ g, u = .invalidateFrame g → g ≠ 0) := by
  simp

theorem test_meets_PtLookupAnswersTheFrame :
    full.Legal ∧ (2 : OperandA).toNat < full.cfg.numPages ∧ ((2 : OperandA).toNat, (1 : FrameNo)) ∈ full.pt ∧
    (3 : OperandA).toNat < full.cfg.numPages ∧ (∀ e ∈ full.pt, e.1 ≠ (3 : OperandA).toNat) :=
  ⟨legal_full, by decide, by decide, by decide, by decide⟩

theorem test_meets_PtInsertMapsThePage :
    full.Legal ∧ (2 : OperandA).toNat < full.cfg.numPages ∧ (1 : FrameNo).toNat < full.cfg.frameLimit ∧
    ((2 : OperandA).toNat, (1 : FrameNo)) ∈ full.pt ∧ (3 : OperandA).toNat < full.cfg.numPages ∧
    (∀ e ∈ full.pt, e.1 ≠ (3 : OperandA).toNat) :=
  ⟨legal_full, by decide, by decide, by decide, by decide, by decide⟩

theorem test_meets_StoreReadGivesThePage :
    tiny.storeLen < (3 + 1) * tiny.pageSize ∧ (2 + 1) * tiny.pageSize ≤ tiny.storeLen := by decide

theorem test_meets_FrameWriteSetsExactlyItsFrame :
    (1 : FrameNo).toNat < one.cfg.frameLimit ∧ (storePage tiny 2).length = one.cfg.pageSize := by decide

theorem test_meets_FrameReadChecksBounds :
    one.cfg.frameLimit ≤ (2 : FrameNo).toNat ∧ one.cfg.pageSize ≤ 4 ∧ (1 : FrameNo).toNat < one.cfg.frameLimit ∧
    3 < one.cfg.pageSize := by decide

theorem test_meets_ShootdownRemovesTheFrame : full.pt.Pairwise fun a b => a.1 < b.1 := by decide

theorem test_meets_AllocatorIsFifo :
    tiny.WellFormed ∧ one.Legal ∧ one.freeNext.toNat < one.cfg.frameLimit ∧ full.Legal ∧
    full.freeNext.toNat = full.cfg.frameLimit :=
  ⟨by decide, legal_one, by decide, legal_full, by decide⟩

theorem test_meets_FrameAllocAnswersAndReclaims :
    one.Legal ∧ one.freeNext.toNat < one.cfg.frameLimit ∧ full.Legal ∧ full.freeNext.toNat = full.cfg.frameLimit :=
  ⟨legal_one, by decide, legal_full, by decide⟩

theorem test_meets_FrameLoadCopiesThePage :
    (2 : OperandA).toNat < one.cfg.numPages ∧ (1 : FrameNo).toNat < one.cfg.frameLimit ∧
    ((2 : OperandA).toNat + 1) * one.cfg.pageSize ≤ one.cfg.storeLen ∧ (3 : OperandA).toNat < one.cfg.numPages ∧
    one.cfg.storeLen < ((3 : OperandA).toNat + 1) * one.cfg.pageSize := by decide

theorem test_meets_FrameReadAnswersTheByte :
    (3 : OperandA).toNat < one.cfg.pageSize ∧ (1 : FrameNo).toNat < one.cfg.frameLimit ∧
    (∀ b, ((1 : FrameNo).toNat * one.cfg.pageSize + (3 : OperandA).toNat, b) ∉ one.frame) := by
  refine ⟨by decide, by decide, ?_⟩
  intro b h
  have : (7, b) ∈ one.frame := h
  simp [one] at this

theorem test_meets_TranslateUsesTheTlbOnAHit : full.Legal ∧ (⟨(decompose full.cfg 11).1, 1⟩ : TlbEntry) ∈ full.tlb :=
  ⟨legal_full, by decide⟩

theorem test_meets_TranslateRefillsTheTlbFromThePageTable :
    oneCold.Legal ∧ (∀ e ∈ oneCold.tlb, e.page ≠ (decompose oneCold.cfg 4).1) ∧
    ((decompose oneCold.cfg 4).1, (0 : FrameNo)) ∈ oneCold.pt := ⟨legal_oneCold, by decide, by decide⟩

theorem test_meets_TranslateHandlesAPageFault :
    (one.Legal ∧ (∀ e ∈ one.tlb, e.page ≠ (decompose one.cfg 11).1) ∧ (∀ e ∈ one.pt, e.1 ≠ (decompose one.cfg 11).1) ∧
      ((decompose one.cfg 11).1 + 1) * one.cfg.pageSize ≤ one.cfg.storeLen ∧
      (true = true ↔ one.freeNext.toNat < one.cfg.frameLimit) ∧ (1 : FrameNo) = one.freeNext) ∧
    (full.Legal ∧ (∀ e ∈ full.tlb, e.page ≠ (decompose full.cfg 4).1) ∧ (∀ e ∈ full.pt, e.1 ≠ (decompose full.cfg 4).1) ∧
      ((decompose full.cfg 4).1 + 1) * full.cfg.pageSize ≤ full.cfg.storeLen ∧
      (false = true ↔ full.freeNext.toNat < full.cfg.frameLimit) ∧ (1 : FrameNo) = full.victim ∧
      ([⟨0, 0⟩] : List TlbEntry) = full.tlb.filter fun e => e.frame ≠ 1) :=
  ⟨⟨legal_one, by decide, by decide, by decide, by decide, by decide⟩, legal_full, by decide, by decide, by decide,
    by decide, by decide, by decide⟩

theorem test_meets_TranslateOfAMissingPageChangesNothing :
    (∀ e ∈ full.tlb, e.page ≠ (decompose full.cfg 12).1) ∧ (∀ e ∈ full.pt, e.1 ≠ (decompose full.cfg 12).1) ∧
    full.cfg.storeLen < ((decompose full.cfg 12).1 + 1) * full.cfg.pageSize := by decide

/-- A fault on `full`, then the same address in the state it leaves. -/
theorem test_meets_TranslateIsIdempotent :
    full.Legal ∧ respOf (.translate 5) full = some 0x0C00FF8900000005 ∧ respStatus 0x0C00FF8900000005 = 0 ∧
    after (fun t => (tlbLookup t.tlb (decompose full.cfg 5).1, respOf (.translate 5) t)) (.translate 5) full =
      some (some 1, some 0x1000FF8900000005) := ⟨legal_full, by decide, by decide, by decide⟩

theorem test_meets_CommandsKeepTheParameters : respOf .frameAlloc full = some 0x0400000000000001 := by decide

theorem test_meets_CommandsReadOnlyTheTuple :
    full.cfg = ({ full with response := some 0, inputs := [.reset] } : State).cfg ∧
    SameTuple full { full with response := some 0, inputs := [.reset] } ∧
    respOf (.translate 5) full = some 0x0C00FF8900000005 := ⟨rfl, by constructor <;> rfl, by decide⟩

theorem test_meets_CommandsWriteOnlyTheirState :
    [Instr.translate 5, .tlbInsert 3 1, .ptInsert 3 1, .frameAlloc, .frameLoad 1 2, .frameRead 1 3].map
      (fun i => (respOf i full).isSome) = [true, true, true, true, true, true] ∧
    breaksCoherence (.frameRead 1 3) = false ∧ commandClass (.frameRead 1 3) ≠ .translation := by decide

theorem test_meets_OnlyLoadsAndFaultsStoreBytes :
    respOf (.frameLoad 1 2) full = some 0 ∧ respOf (.translate 8) full = some 0x1000FF9800000004 ∧
    (tlbLookup full.tlb (decompose full.cfg 8).1).isSome ∧ (ptLookup oneCold.pt (decompose full.cfg 4).1).isSome ∧
    respOf (.tlbLookup 3) full = some 0 := by decide

theorem test_meets_StatsReadAnswersTheRegister :
    full.Legal ∧ [full.hits, full.faults, full.lookups, full.tlb.length, full.freeNext.toNat, full.victim.toNat][
      (5 : OperandA).toNat]? = some 1 ∧ [full.hits, full.faults][(1 : OperandA).toNat]? = some 3 ∧
    full.cfg.cntWidth ≤ 32 := ⟨legal_full, by decide, by decide, by decide⟩

theorem test_meets_OnlyCompletedTranslatesCount :
    full.Legal ∧ respOf (.translate 5) full = some 0x0C00FF8900000005 ∧
    commandClass (.translate 5) = .translation ∧ respStatus 0x0C00FF8900000005 = 0 ∧
    commandClass (.decode 5) ≠ .translation ∧ respOf (.translate 12) full = some 0x6000000000000000 ∧
    respStatus 0x6000000000000000 ≠ 0 :=
  ⟨legal_full, by decide, by decide, by decide, by decide, by decide, by decide⟩

theorem legal_full_inputs (x : List HostInput) : ({ full with inputs := x } : State).Legal := { legal_full with }

theorem test_meets_CountersAndFreeNextNeverDecrease :
    ({ full with inputs := [.command 0x1000000000000005] } : State).Legal ∧
    ({ full with inputs := [.command 0x1000000000000005] } : State).inputs.head? ≠ some .reset ∧
    reply full 0x1000000000000005 = some 0x0C00FF8900000005 := ⟨legal_full_inputs _, by decide, by decide⟩

theorem test_meets_StepKeepsTheCountersRelation :
    CountersAgree full ∧ reply full 0x1000000000000005 = some 0x0C00FF8900000005 := by
  exact ⟨by unfold CountersAgree; decide, by decide⟩

theorem test_meets_StepRunsTheDecodedCommand :
    (sendNext full 0x8000000000000000).cfg.WellFormed ∧
    (sendNext full 0x8000000000000000).inputs = .command 0x8000000000000000 :: [] ∧
    decodeWord 0x8000000000000000 = .ok .frameAlloc := by decide

theorem test_meets_StepOnOtherInputs :
    full.cfg.WellFormed ∧ full.inputs = [] ∧ (sendNext full 0).inputs = .command 0 :: [] ∧
    decodeWord 0 = .error (.reservedOpcode 0) ∧
    step { full with inputs := [.commandWhileOutstanding 0] } = .fault .requestWhileOutstanding :=
  ⟨by decide, by decide, by decide, rfl, rfl⟩

theorem test_meets_IllFormedConfigurationsAreRefused :
    step { full with cfg := { tiny with tlbCap := 0 } } = .refused .badConfiguration ∧
    step { full with cfg := { tiny with frameSlots := 2 } } = .next { full with cfg := { tiny with frameSlots := 2 } } :=
  ⟨rfl, rfl⟩

theorem test_meets_ResetSetsEveryElement :
    ({ full with inputs := [.reset] } : State).cfg.WellFormed ∧ ({ full with inputs := [.reset] } : State).inputs = .reset :: [] := by
  decide

theorem test_meets_ResetIsLegalAndCoherent : tiny.WellFormed ∧ Config.defaults.WellFormed := by decide

theorem test_meets_StepKeepsStatesLegal :
    ({ full with inputs := [.command 0x7000000100000003] } : State).Legal ∧
    reply full 0x7000000100000003 = some 0 := ⟨legal_full_inputs _, by decide⟩

/-- Both clauses: a command that keeps the invariants, and a reset. -/
theorem test_meets_StepKeepsCoherence :
    (sendNext full 0x1000000000000005).Legal ∧ Coherent (sendNext full 0x1000000000000005) ∧
    (∀ x, (sendNext full 0x1000000000000005).inputs.head? = some x → keepsCoherence x = true) ∧
    reply full 0x1000000000000005 = some 0x0C00FF8900000005 ∧ keepsCoherence .reset = true :=
  ⟨legal_full_inputs _, ⟨coherent_full.1, coherent_full.2, coherent_full.3, coherent_full.4, coherent_full.5,
    coherent_full.6, coherent_full.7, coherent_full.8⟩, by intro x h; cases h; decide, by decide, rfl⟩

/-- Three faults and a hit from reset, with no maintenance command among them. -/
theorem test_meets_CoherentAlongEverySequence :
    tiny.WellFormed ∧
    (∀ x ∈ ([.command 0x1000000000000004, .command 0x1000000000000008, .command 0x1000000000000000,
      .command 0x1000000000000001] : List HostInput), keepsCoherence x = true) ∧
    (match Sys2Proof.core.run 3 { State.boot tiny with inputs := [.command 0x1000000000000004,
        .command 0x1000000000000008, .command 0x1000000000000000, .command 0x1000000000000001] } with
      | .next s => decide (s.tlb = full.tlb ∧ s.pt = full.pt ∧ s.freeNext = 2 ∧ s.victim = 1 ∧ s.faults = 3 ∧
          s.frame = full.frame)
      | _ => false) = true := by decide

/-- The run of the theorem before reaches three faults with two frames: two pages are resident. -/
theorem test_meets_ResidentPagesAreTheFaultsUpToTheLimit :
    tiny.WellFormed ∧
    (∀ x ∈ ([.command 0x1000000000000004, .command 0x1000000000000008, .command 0x1000000000000000] :
      List HostInput), keepsCoherence x = true) ∧
    (match Sys2Proof.core.run 3 { State.boot tiny with inputs := [.command 0x1000000000000004,
        .command 0x1000000000000008, .command 0x1000000000000000] } with
      | .next s => decide (s.faults < s.cfg.cntMax ∧ s.faults = 3 ∧ s.pt.length = 2)
      | _ => false) = true := by decide

theorem test_meets_CoherentTranslateReturnsTheStoreByte :
    full.Legal ∧ Coherent full ∧ respOf (.translate 5) full = some 0x0C00FF8900000005 ∧
    respStatus 0x0C00FF8900000005 = 0 := ⟨legal_full, coherent_full, by decide, by decide⟩

theorem test_meets_TranslateNeverShowsTheInitialFrames :
    one.Legal ∧ Coherent one ∧ respOf (.translate 7) one = some 0x1000FF8B00000003 ∧
    respStatus 0x1000FF8B00000003 = 0 := ⟨legal_one, coherent_one, by decide, by decide⟩

theorem test_meets_ExhaustedMemoryReclaimsTheOldestFrame :
    full.Legal ∧ Coherent full ∧ full.freeNext.toNat = full.cfg.frameLimit ∧
    (∀ e ∈ full.pt, e.1 ≠ (decompose full.cfg 5).1) ∧
    ((decompose full.cfg 5).1 + 1) * full.cfg.pageSize ≤ full.cfg.storeLen :=
  ⟨legal_full, coherent_full, by decide, by decide, by decide⟩

end Sys2Proof.Machine.Tests
end

section
/-! What a step does with the configuration (00_scope.md R10): an ill-formed one is refused, and nothing past that
check refuses, since every command ends with a response and the port answers or stops. -/
namespace Sys2Proof.Machine
open Sys2Proof

/-! ### No command refuses -/

/-- Every command of the opcode table is committed or raised by `complete` (R15). -/
theorem exec_eq_complete (i : Instr) (s : State) : ∃ r, exec i s = complete s r := by
  cases i with
  | decode la => exact ⟨.ok (_, _), exec_decode la s⟩
  | frameAlloc => exact ⟨.ok (_, _), exec_frameAlloc s⟩
  | _ => exact ⟨_, rfl⟩

/-- Every command answers a next state (60_exceptions.md R307). -/
theorem exec_eq_next (i : Instr) (s : State) : ∃ t, exec i s = .next t := by
  obtain ⟨r, hr⟩ := exec_eq_complete i s
  rcases complete_cases s r with ⟨t, reply, -, hc⟩ | ⟨e, -, hc⟩
  · exact ⟨answer t (okWord reply), hr.trans hc⟩
  · exact ⟨raise e s, hr.trans hc⟩

/-- Every request word is answered, legal or not (30_encoding.md R105, R108). -/
theorem answerRequest_eq_next (w : Word64) (s : State) : ∃ t, answerRequest w s = .next t := by
  unfold answerRequest
  cases decodeWord w with
  | ok i => exact exec_eq_next i s
  | error r => exact ⟨raise .illegalCommand s, rfl⟩

/-- The port answers every input, except that a request sent while another is outstanding stops it (R351). -/
theorem serve_cases (s : State) :
    (∃ t, serve s = .next t) ∨
    (∃ w rest, s.inputs = .commandWhileOutstanding w :: rest ∧ serve s = .fault .requestWhileOutstanding) := by
  unfold serve
  match hs : s.inputs with
  | [] => exact .inl ⟨s, rfl⟩
  | .command w :: rest => exact .inl (answerRequest_eq_next w { s with inputs := rest })
  | .commandWhileOutstanding w :: rest => exact .inr ⟨w, rest, rfl, rfl⟩
  | .reset :: rest => exact .inl ⟨applyReset { s with inputs := rest }, rfl⟩

theorem serve_ne_refused (s : State) (r : Refusal) : serve s ≠ .refused r := by
  rcases serve_cases s with ⟨t, h⟩ | ⟨w, rest, -, h⟩ <;> simp [h]

/-! ### The configuration check -/

theorem step_of_wellFormed {s : State} (h : s.cfg.WellFormed) : step s = serve s := if_pos h

theorem step_of_not_wellFormed {s : State} (h : ¬ s.cfg.WellFormed) : step s = .refused .badConfiguration :=
  if_neg h

/-- A step is refused, for whatever reason the model has, only over its configuration. -/
theorem step_eq_refused_iff (s : State) (r : Refusal) :
    step s = .refused r ↔ ¬ s.cfg.WellFormed ∧ r = .badConfiguration := by
  by_cases hc : s.cfg.WellFormed
  · rw [step_of_wellFormed hc]
    exact ⟨fun h => absurd h (serve_ne_refused s r), fun h => absurd hc h.1⟩
  · simp [step_of_not_wellFormed hc, hc, eq_comm]

/-- R10's conditions as one flat list, `PAGE_SIZE` written out. -/
theorem wellFormed_iff_conditions (c : Config) :
    c.WellFormed ↔
      1 ≤ c.offsetBits ∧ c.offsetBits ≤ 16 ∧ 1 ≤ c.pnBits ∧
      c.offsetBits + c.pnBits ≤ 32 ∧ 1 ≤ c.tlbCap ∧ 1 ≤ c.frameLimit ∧
      c.frameLimit ≤ c.frameSlots ∧ c.frameSlots ≤ 2 ^ 16 ∧ c.frameLimit < 2 ^ 16 ∧
      c.frameLimit * 2 ^ c.offsetBits ≤ 2 ^ 32 ∧ c.tlbCap < 2 ^ 16 :=
  and_assoc

/-- Settles O51: the step's only refusal is its check of R10's conditions. -/
theorem illFormedConfigurationsAreRefused : Obligations.IllFormedConfigurationsAreRefused := by
  intro s
  rw [step_eq_refused_iff, ← wellFormed_iff_conditions]
  exact and_iff_left rfl

end Sys2Proof.Machine
end

section
/-! What a command reads (10_state.md R49): never the host's later inputs nor the last response, so putting others
in their place changes nothing a command does but that the new inputs are kept. -/
namespace Sys2Proof.Machine
open Sys2Proof

/-- The state with other host inputs to come and another last response: the two fields of the model that R49 lists
neither in the tuple nor among the parameters (log entries 2 and 3). -/
def State.withHost (s : State) (ins : List HostInput) (r : Option Word64) : State :=
  { s with inputs := ins, response := r }

/-- What an outcome becomes when other host inputs were to come; the response stays the one the command gave. -/
def outcomeWithInputs (ins : List HostInput) :
    Host.Outcome State Fault Refusal → Host.Outcome State Fault Refusal
  | .next t => .next (t.withHost ins t.response)
  | .fault f => .fault f
  | .refused f => .refused f

/-- States that agree on the tuple and the parameters differ at most in what `State.withHost` replaces. -/
theorem SameTuple.eq_withHost {s t : State} (hcfg : s.cfg = t.cfg) (h : SameTuple s t) :
    t = s.withHost t.inputs t.response := by
  obtain ⟨htlb, hpt, hfree, hvictim, hframe, hdraw, hhits, hfaults, hlookups⟩ := h
  simp only [State.withHost, hcfg, htlb, hpt, hfree, hvictim, hframe, hdraw, hhits, hfaults, hlookups]

section
variable (s : State) (ins : List HostInput) (r : Option Word64)

@[simp] theorem State.withHost_cfg : (s.withHost ins r).cfg = s.cfg := rfl
@[simp] theorem State.withHost_tlb : (s.withHost ins r).tlb = s.tlb := rfl
@[simp] theorem State.withHost_pt : (s.withHost ins r).pt = s.pt := rfl

theorem sameTuple_withHost : SameTuple s (s.withHost ins r) := by
  constructor <;> rfl

/-! ### The shared operations -/

theorem frameAlloc_withHost :
    frameAlloc (s.withHost ins r) =
      { frameAlloc s with st := (frameAlloc s).st.withHost ins r } := by
  unfold frameAlloc
  by_cases hfree : s.freeNext.toNat < s.cfg.frameLimit
  · rw [if_pos hfree]
    exact if_pos hfree
  · rw [if_neg hfree]
    exact if_neg hfree

theorem resolveFault_withHost (p : Nat) :
    resolveFault (s.withHost ins r) p =
      (resolveFault s p).map fun q => { q with st := q.st.withHost ins r } := by
  simp only [resolveFault, frameAlloc_withHost, State.withHost_cfg]
  cases storeRead s.cfg p <;> rfl

/-- TRANSLATE takes the same one of its three paths (44_translate.md R240), whatever stands in the host's fields. -/
theorem resolve_withHost (p : Nat) :
    resolve (s.withHost ins r) p = (resolve s p).map fun q => { q with st := q.st.withHost ins r } := by
  unfold resolve
  rw [State.withHost_tlb, State.withHost_pt]
  cases tlbLookup s.tlb p with
  | some f => rfl
  | none =>
    cases ptLookup s.pt p with
    | some f => rfl
    | none => exact resolveFault_withHost s ins r p

/-! ### The end of a command -/

theorem complete_ok_withHost (t : State) (reply : Reply) :
    complete (s.withHost ins r) (.ok (t.withHost ins r, reply)) =
      outcomeWithInputs ins (complete s (.ok (t, reply))) := rfl

theorem complete_error_withHost (e : XbError) :
    complete (s.withHost ins r) (.error e) = outcomeWithInputs ins (complete s (.error e)) := rfl

/-- A command may first make a check that gives the same in both states: what follows its success decides. -/
theorem complete_bind_withHost {α : Type} (m : Except XbError α) {k k' : α → Except XbError (State × Reply)}
    (h : ∀ a, complete (s.withHost ins r) (k' a) = outcomeWithInputs ins (complete s (k a))) :
    complete (s.withHost ins r) (m >>= k') = outcomeWithInputs ins (complete s (m >>= k)) := by
  cases m with
  | error e => exact complete_error_withHost s ins r e
  | ok a => exact h a

/-! ### The commands -/

theorem exec_translate_withHost (la : OperandA) :
    exec (.translate la) (s.withHost ins r) = outcomeWithInputs ins (exec (.translate la) s) := by
  show execTranslate la (s.withHost ins r) = outcomeWithInputs ins (execTranslate la s)
  unfold execTranslate
  rw [State.withHost_cfg, resolve_withHost]
  cases resolve s (decompose s.cfg la).1 with
  | error e => exact complete_error_withHost s ins r e
  | ok q =>
    exact complete_bind_withHost s ins r (frameRead q.st q.frame (decompose s.cfg la).2) fun v =>
      complete_ok_withHost s ins r (countLookup q.st q.hit q.fault) _

/-- Every command does the same whatever stands in the host's fields, and keeps the inputs it finds. -/
theorem exec_withHost (i : Instr) :
    exec i (s.withHost ins r) = outcomeWithInputs ins (exec i s) := by
  cases i with
  | translate la => exact exec_translate_withHost s ins r la
  | decode la => exact complete_ok_withHost s ins r s _
  | frameAlloc =>
    simp only [exec_frameAlloc, frameAlloc_withHost]
    rfl
  | tlbLookup page =>
    refine complete_bind_withHost s ins r (pageOperand s.cfg page) fun p => ?_
    rw [State.withHost_tlb]
    cases tlbLookup s.tlb p <;> rfl
  | tlbInsert page frame =>
    exact complete_bind_withHost s ins r (pageOperand s.cfg page) fun p =>
      complete_bind_withHost s ins r (frameOperand s.cfg frame) fun f => rfl
  | tlbRead index =>
    refine complete_bind_withHost s ins r (slotOperand s.cfg index) fun n => ?_
    rw [State.withHost_tlb]
    cases s.tlb[n]? <;> rfl
  | ptLookup page =>
    refine complete_bind_withHost s ins r (pageOperand s.cfg page) fun p => ?_
    rw [State.withHost_pt]
    cases ptLookup s.pt p <;> rfl
  | ptInsert page frame =>
    refine complete_bind_withHost s ins r (pageOperand s.cfg page) fun p =>
      complete_bind_withHost s ins r (frameOperand s.cfg frame) fun f => ?_
    simp only [ptInsert, State.withHost_pt]
    cases ptLookup s.pt p <;> rfl
  | frameLoad frame page =>
    exact complete_bind_withHost s ins r (pageOperand s.cfg page) fun p =>
      complete_bind_withHost s ins r (frameOperand s.cfg frame) fun f =>
      complete_bind_withHost s ins r (storeRead s.cfg p) fun bytes => rfl
  | frameRead frame offset =>
    exact complete_bind_withHost s ins r (offsetOperand s.cfg offset) fun o =>
      complete_bind_withHost s ins r (frameOperand s.cfg frame) fun f =>
      complete_bind_withHost s ins r (frameRead s f o) fun v => rfl
  | statsRead sel =>
    exact complete_bind_withHost s ins r (selectorOperand sel) fun n => rfl

end

/-- Settles O41: the two states differ only in the host's fields, which no command reads. -/
theorem commandsReadOnlyTheTuple : Obligations.CommandsReadOnlyTheTuple := by
  intro i s t s' hcfg htuple hexec
  refine ⟨s'.withHost t.inputs s'.response, ?_, sameTuple_withHost _ _ _, rfl⟩
  rw [htuple.eq_withHost hcfg, exec_withHost, hexec]
  rfl

end Sys2Proof.Machine
end

section
/-! What the two memories give when read (20_memory.md R72, R77): a whole page of the backing store or its error,
and one byte of a frame inside the configured bounds. -/
namespace Sys2Proof.Machine
open Sys2Proof

/-- Every offset of a page that is whole in the store has a byte. -/
theorem storePage_getElem?_isSome {c : Config} {p i : Nat} (h : (p + 1) * c.pageSize ≤ c.storeLen)
    (hi : i < c.pageSize) : ((storePage c p)[i]?).isSome := by
  rw [isSome_getElem?, storePage_length h]
  exact hi

/-- Settles O27: the page read is `storePage`, whose bytes are the store's from `p * PAGE_SIZE` on. -/
theorem storeReadGivesThePage : Obligations.StoreReadGivesThePage := by
  intro c p
  refine ⟨storeRead_error, fun hpage => ⟨storePage c p, storeRead_ok hpage, storePage_length hpage, ?_⟩⟩
  intro i hi
  exact ⟨storePage_getElem? hi, storePage_getElem?_isSome hpage hi⟩

/-- Settles O29: the address read is the model's `physAddr`, which is `f * PAGE_SIZE + o` by definition. -/
theorem frameReadChecksBounds : Obligations.FrameReadChecksBounds :=
  fun _ _ _ => ⟨frameRead_error, frameRead_ok⟩

end Sys2Proof.Machine
end

section
/-! The request word as its four fields (30_encoding.md R101), and the decoder's answer read from them (R105, R107,
R108): a word is a command of opcode `o` exactly when it passes the three legality checks for `o`. -/
namespace Sys2Proof

/-! ### Fields -/

theorem append_fields (w : Word64) : fieldOp w ++ fieldRsv w ++ fieldB w ++ fieldA w = w := by
  have h1 : fieldOp w ++ fieldRsv w = w.extractLsb' 48 16 :=
    BitVec.extractLsb'_append_extractLsb'_eq_extractLsb' rfl
  have h2 : w.extractLsb' 48 16 ++ fieldB w = w.extractLsb' 32 32 :=
    BitVec.extractLsb'_append_extractLsb'_eq_extractLsb' rfl
  have h3 : w.extractLsb' 32 32 ++ fieldA w = w := BitVec.extractLsb'_append_extractLsb' (len := 32)
  rw [h1, h2, h3]

/-- The four fields cover the word (R101). -/
theorem word_eq_iff_fields {v w : Word64} :
    v = w ↔ fieldOp v = fieldOp w ∧ fieldRsv v = fieldRsv w ∧ fieldB v = fieldB w ∧ fieldA v = fieldA w := by
  constructor
  · rintro rfl
    exact ⟨rfl, rfl, rfl, rfl⟩
  · rintro ⟨hop, hrsv, hb, ha⟩
    rw [← append_fields v, ← append_fields w, hop, hrsv, hb, ha]

@[simp] theorem fieldOp_and (v w : Word64) : fieldOp (v &&& w) = fieldOp v &&& fieldOp w :=
  BitVec.extractLsb'_and
@[simp] theorem fieldRsv_and (v w : Word64) : fieldRsv (v &&& w) = fieldRsv v &&& fieldRsv w :=
  BitVec.extractLsb'_and
@[simp] theorem fieldB_and (v w : Word64) : fieldB (v &&& w) = fieldB v &&& fieldB w :=
  BitVec.extractLsb'_and
@[simp] theorem fieldA_and (v w : Word64) : fieldA (v &&& w) = fieldA v &&& fieldA w :=
  BitVec.extractLsb'_and

/-! ### Opcodes -/

theorem opcodeOf_eq_some_iff {op : BitVec 4} {o : Opcode} : opcodeOf op = some o ↔ op = opcodeBits o := by
  constructor
  · revert op
    cases o <;> decide
  · rintro rfl
    exact opcodeOf_opcodeBits o

/-- The reserved opcodes of R103 and R105(a). -/
theorem opcodeOf_eq_none_iff {op : BitVec 4} :
    opcodeOf op = none ↔ op ∈ ([0x0, 0xC, 0xD, 0xE, 0xF] : List (BitVec 4)) := by
  revert op
  decide

/-- The rows of R102 with a 0 in column B. -/
theorem usesB_eq_false_iff (o : Opcode) :
    usesB o = false ↔ opcodeBits o ∈ ([0x1, 0x2, 0x3, 0x5, 0x6, 0x8, 0xB] : List (BitVec 4)) := by
  cases o <;> decide

/-- The one row of R102 with a 0 in column A. -/
theorem usesA_eq_false_iff (o : Opcode) : usesA o = false ↔ opcodeBits o = 0x8 := by
  cases o <;> decide

@[simp] theorem buildInstr_opcode (o : Opcode) (a : OperandA) (b : FrameNo) : (buildInstr o a b).opcode = o := by
  cases o <;> rfl

@[simp] theorem buildInstr_operands (i : Instr) : buildInstr i.opcode i.operandA i.operandB = i := by
  cases i <;> rfl

theorem unusedOperandSet_eq_true_iff (o : Opcode) (a : OperandA) (b : FrameNo) :
    unusedOperandSet o a b = true ↔ (usesA o = false ∧ a ≠ 0) ∨ (usesB o = false ∧ b ≠ 0) := by
  simp [unusedOperandSet]

theorem unusedOperandSet_eq_false_iff (o : Opcode) (a : OperandA) (b : FrameNo) :
    unusedOperandSet o a b = false ↔ (usesA o = true ∨ a = 0) ∧ (usesB o = true ∨ b = 0) := by
  simp [unusedOperandSet, or_iff_not_imp_left]

/-! ### The decoder -/

/-- The word passes the three legality checks of R105 for the opcode `o`. -/
def LegalFor (w : Word64) (o : Opcode) : Prop :=
  opcodeOf (fieldOp w) = some o ∧ fieldRsv w = 0 ∧ unusedOperandSet o (fieldA w) (fieldB w) = false

/-- Everything the decoder can answer, in the order of R107. -/
theorem decodeWord_cases (w : Word64) :
    (opcodeOf (fieldOp w) = none ∧ decodeWord w = .error (.reservedOpcode (fieldOp w))) ∨
    ∃ o, opcodeOf (fieldOp w) = some o ∧
      ((fieldRsv w ≠ 0 ∧ decodeWord w = .error .reservedBits) ∨
       (fieldRsv w = 0 ∧ unusedOperandSet o (fieldA w) (fieldB w) = true ∧
          decodeWord w = .error .unusedOperand) ∨
       (LegalFor w o ∧ decodeWord w = .ok (buildInstr o (fieldA w) (fieldB w)))) := by
  unfold decodeWord LegalFor
  cases opcodeOf (fieldOp w) with
  | none => exact .inl ⟨rfl, rfl⟩
  | some o =>
    refine .inr ⟨o, rfl, ?_⟩
    by_cases hrsv : fieldRsv w = 0
    · cases hunused : unusedOperandSet o (fieldA w) (fieldB w) <;> simp [hrsv, hunused]
    · exact .inl ⟨hrsv, if_pos hrsv⟩

theorem decodeWord_of_legalFor {w : Word64} {o : Opcode} (h : LegalFor w o) :
    decodeWord w = .ok (buildInstr o (fieldA w) (fieldB w)) := by
  obtain ⟨hop, hrsv, hunused⟩ := h
  simp [decodeWord, hop, hrsv, hunused]

theorem decodeWord_eq_ok_iff {w : Word64} {i : Instr} :
    decodeWord w = .ok i ↔ LegalFor w i.opcode ∧ buildInstr i.opcode (fieldA w) (fieldB w) = i := by
  constructor
  · intro h
    rcases decodeWord_cases w with ⟨-, he⟩ | ⟨o, -, ⟨-, he⟩ | ⟨-, -, he⟩ | ⟨hlegal, hok⟩⟩
    · simp [he] at h
    · simp [he] at h
    · simp [he] at h
    · obtain rfl : buildInstr o (fieldA w) (fieldB w) = i := by simpa [hok] using h
      simpa using hlegal
  · rintro ⟨hlegal, hi⟩
    rw [decodeWord_of_legalFor hlegal, hi]

/-- The three ways a word is illegal (R105), in terms of the opcode's unused fields. -/
theorem decodeWord_eq_error_iff (w : Word64) :
    (∃ r, decodeWord w = .error r) ↔
      opcodeOf (fieldOp w) = none ∨ fieldRsv w ≠ 0 ∨
        ∃ o, opcodeOf (fieldOp w) = some o ∧ unusedOperandSet o (fieldA w) (fieldB w) = true := by
  rcases decodeWord_cases w with ⟨hop, he⟩ | ⟨o, hop, ⟨hrsv, he⟩ | ⟨-, hunused, he⟩ | ⟨⟨-, hrsv, hunused⟩, he⟩⟩
  · exact iff_of_true ⟨_, he⟩ (.inl hop)
  · exact iff_of_true ⟨_, he⟩ (.inr (.inl hrsv))
  · exact iff_of_true ⟨_, he⟩ (.inr (.inr ⟨o, hop, hunused⟩))
  · simp [hop, hrsv, hunused, he]

theorem legalFor_encode (i : Instr) : LegalFor (encode i) i.opcode := by
  cases i with
  | translate la => exact Laws.EncodeIsLegal.translate la
  | decode la => exact Laws.EncodeIsLegal.decode la
  | tlbLookup page => exact Laws.EncodeIsLegal.tlbLookup page
  | tlbInsert page frame => exact Laws.EncodeIsLegal.tlbInsert page frame
  | tlbRead index => exact Laws.EncodeIsLegal.tlbRead index
  | ptLookup page => exact Laws.EncodeIsLegal.ptLookup page
  | ptInsert page frame => exact Laws.EncodeIsLegal.ptInsert page frame
  | frameAlloc => exact Laws.EncodeIsLegal.frameAlloc
  | frameLoad frame page => exact Laws.EncodeIsLegal.frameLoad frame page
  | frameRead frame offset => exact Laws.EncodeIsLegal.frameRead frame offset
  | statsRead sel => exact Laws.EncodeIsLegal.statsRead sel

theorem decodeWord_encode (i : Instr) : decodeWord (encode i) = .ok i := by
  obtain ⟨-, -, hb, ha⟩ := encode_fields i
  rw [decodeWord_eq_ok_iff, ha, hb]
  exact ⟨legalFor_encode i, buildInstr_operands i⟩

/-- The spec lists an example encoding once for both directions (R118): its decoding follows. -/
theorem decode_and_encode_of_encode_eq {i : Instr} {w : Word64} (h : encode i = w) :
    decodeWord w = .ok i ∧ encode i = w :=
  ⟨h ▸ decodeWord_encode i, h⟩

/-! ### The opcode table's mask and match columns -/

/-- The mask covers `OP`, `RSV` and every field the opcode does not use (R108). -/
theorem opcodeMask_fields (o : Opcode) :
    fieldOp (opcodeMask o) = BitVec.allOnes 4 ∧ fieldRsv (opcodeMask o) = BitVec.allOnes 12 ∧
    fieldB (opcodeMask o) = (if usesB o then 0 else BitVec.allOnes 16) ∧
    fieldA (opcodeMask o) = (if usesA o then 0 else BitVec.allOnes 32) := by
  cases o <;> decide

theorem opcodePattern_fields (o : Opcode) :
    fieldOp (opcodePattern o) = opcodeBits o ∧ fieldRsv (opcodePattern o) = 0 ∧
    fieldB (opcodePattern o) = 0 ∧ fieldA (opcodePattern o) = 0 := by
  cases o <;> decide

/-- A field masked by the table is zero exactly when its opcode uses it or it is zero itself. -/
theorem and_ite_allOnes_eq_zero_iff {n : Nat} (used : Bool) (x : BitVec n) :
    (x &&& if used then 0 else BitVec.allOnes n) = 0 ↔ used = true ∨ x = 0 := by
  cases used <;> simp

/-- Mask and match say the same as the three legality checks (R105, R108). -/
theorem and_opcodeMask_eq_iff_legalFor (w : Word64) (o : Opcode) :
    w &&& opcodeMask o = opcodePattern o ↔ LegalFor w o := by
  obtain ⟨mop, mrsv, mb, ma⟩ := opcodeMask_fields o
  obtain ⟨pop, prsv, pb, pa⟩ := opcodePattern_fields o
  rw [word_eq_iff_fields, fieldOp_and, fieldRsv_and, fieldB_and, fieldA_and, mop, mrsv, mb, ma, pop, prsv, pb, pa,
    BitVec.and_allOnes, BitVec.and_allOnes, and_ite_allOnes_eq_zero_iff, and_ite_allOnes_eq_zero_iff,
    LegalFor, opcodeOf_eq_some_iff, unusedOperandSet_eq_false_iff, and_comm (a := usesB o = true ∨ _)]

theorem classify_eq_command_iff {c : Config} {w : Word64} {i : Instr} :
    classify c w = .command i ↔ decodeWord w = .ok i ∧ wellFormed c i = true := by
  constructor
  · intro h
    simp only [classify] at h
    split at h
    · cases h
    next j hdecode =>
      split at h
      next hwf =>
        obtain rfl : j = i := by simpa using h
        exact ⟨hdecode, hwf⟩
      · cases h
  · rintro ⟨hdecode, hwf⟩
    simp [classify, hdecode, hwf]

/-- Settles O4: mask and match are the legality checks, and a legal word's command is built from its fields. -/
theorem wordSelectsCommandExactlyByMask : Obligations.WordSelectsCommandExactlyByMask := by
  refine ⟨fun c w o => ?_, fun c w => ?_⟩
  · simp only [classify_eq_command_iff, decodeWord_eq_ok_iff, and_opcodeMask_eq_iff_legalFor]
    constructor
    · rintro ⟨i, ⟨⟨hlegal, hi⟩, hwf⟩, rfl⟩
      rw [hi]
      exact ⟨hlegal, hwf⟩
    · rintro ⟨hlegal, hwf⟩
      refine ⟨buildInstr o (fieldA w) (fieldB w), ⟨⟨?_, ?_⟩, hwf⟩, buildInstr_opcode _ _ _⟩
      · rwa [buildInstr_opcode]
      · rw [buildInstr_opcode]
  · cases classify c w with
    | illegalCommand r => exact .inl ⟨r, rfl⟩
    | outOfRange i => exact .inr (.inl ⟨i, rfl⟩)
    | command i => exact .inr (.inr ⟨i, rfl⟩)

end Sys2Proof
end

section
/-! Requests answered by an error before they do anything: the illegal words of 30_encoding.md R105 and the operands
out of range of R106. -/
namespace Sys2Proof.Machine
open Sys2Proof

/-! ### Illegal words -/

theorem answerRequest_of_decodeWord_error {w : Word64} {r : IllegalReason} (h : decodeWord w = .error r)
    (s : State) : answerRequest w s = .next (raise .illegalCommand s) := by
  rw [answerRequest, h]

/-- R105(c) with the opcodes of R102 written out. -/
theorem unusedOperandSet_eq_true_iff_opcodeBits (o : Opcode) (a : OperandA) (b : FrameNo) :
    unusedOperandSet o a b = true ↔
      (opcodeBits o ∈ ([0x1, 0x2, 0x3, 0x5, 0x6, 0x8, 0xB] : List (BitVec 4)) ∧ b ≠ 0) ∨
        (opcodeBits o = 0x8 ∧ a ≠ 0) := by
  rw [unusedOperandSet_eq_true_iff, usesA_eq_false_iff, usesB_eq_false_iff, or_comm]

/-- An opcode with an unused operand field is none of the reserved ones. -/
theorem exists_unusedOperandSet_iff (op : BitVec 4) (a : OperandA) (b : FrameNo) :
    (∃ o, opcodeOf op = some o ∧ unusedOperandSet o a b = true) ↔
      (op ∈ ([0x1, 0x2, 0x3, 0x5, 0x6, 0x8, 0xB] : List (BitVec 4)) ∧ b ≠ 0) ∨ (op = 0x8 ∧ a ≠ 0) := by
  cases hop : opcodeOf op with
  | some o =>
    obtain rfl := opcodeOf_eq_some_iff.mp hop
    simp only [Option.some.injEq, exists_eq_left', unusedOperandSet_eq_true_iff_opcodeBits]
  | none =>
    obtain ⟨hB, hA⟩ : op ∉ ([0x1, 0x2, 0x3, 0x5, 0x6, 0x8, 0xB] : List (BitVec 4)) ∧ op ≠ 0x8 := by
      revert op
      decide
    simp only [reduceCtorEq, false_and, exists_false, hB, hA, or_self]

/-- Settles O5: the decoder's three checks with the opcodes written out; an illegal word is answered by `raise`. -/
theorem illegalWordsAreExactlyThoseOfTheRule : Obligations.IllegalWordsAreExactlyThoseOfTheRule := by
  refine fun w => ⟨?_, fun r hr s => answerRequest_of_decodeWord_error hr s⟩
  rw [decodeWord_eq_error_iff, opcodeOf_eq_none_iff, exists_unusedOperandSet_iff]

/-! ### Operands out of range -/

/-- A command with an operand outside its range raises OutOfRange, whatever the state (R106). -/
theorem exec_of_not_wellFormed {i : Instr} {s : State} (h : wellFormed s.cfg i = false) :
    exec i s = .next (raise .outOfRange s) := by
  cases i with
  | translate la => simp [wellFormed] at h
  | decode la => simp [wellFormed] at h
  | frameAlloc => simp [wellFormed] at h
  | tlbLookup page =>
    rcases exec_tlbLookup_cases page s with ⟨hp, -⟩ | ⟨hp, -⟩ | ⟨-, he⟩
    · simp [wellFormed, pageInRange, hp] at h
    · simp [wellFormed, pageInRange, hp] at h
    · exact he
  | tlbInsert page frame =>
    rcases exec_tlbInsert_cases page frame s with ⟨hp, hf, -⟩ | ⟨-, he⟩
    · simp [wellFormed, pageInRange, frameInRange, hp, hf] at h
    · exact he
  | tlbRead index =>
    rcases exec_tlbRead_cases index s with ⟨hn, -⟩ | ⟨hn, -⟩ | ⟨-, he⟩
    · simp [wellFormed, slotInRange, hn] at h
    · simp [wellFormed, slotInRange, hn] at h
    · exact he
  | ptLookup page =>
    rcases exec_ptLookup_cases page s with ⟨hp, -⟩ | ⟨hp, -⟩ | ⟨-, he⟩
    · simp [wellFormed, pageInRange, hp] at h
    · simp [wellFormed, pageInRange, hp] at h
    · exact he
  | ptInsert page frame =>
    rcases exec_ptInsert_cases page frame s with ⟨hp, hf, -⟩ | ⟨-, he⟩
    · simp [wellFormed, pageInRange, frameInRange, hp, hf] at h
    · exact he
  | frameLoad frame page =>
    rcases exec_frameLoad_cases frame page s with ⟨hp, hf, -⟩ | ⟨hp, hf, -⟩ | ⟨-, he⟩
    · simp [wellFormed, pageInRange, frameInRange, hp, hf] at h
    · simp [wellFormed, pageInRange, frameInRange, hp, hf] at h
    · exact he
  | frameRead frame offset =>
    rcases exec_frameRead_cases frame offset s with ⟨ho, hf, -⟩ | ⟨-, he⟩
    · simp [wellFormed, offsetInRange, frameInRange, ho, hf] at h
    · exact he
  | statsRead sel =>
    rcases exec_statsRead_cases sel s with ⟨hn, -⟩ | ⟨-, he⟩
    · simp [wellFormed, selectorInRange, hn] at h
    · exact he

section
variable {c : Config} {a : OperandA} {f : FrameNo}

theorem wellFormed_of_page_ge (h : c.numPages ≤ a.toNat) :
    ∀ i ∈ [Instr.tlbLookup a, .tlbInsert a f, .ptLookup a, .ptInsert a f, .frameLoad f a],
      wellFormed c i = false := by
  simp [wellFormed, pageInRange, h]

theorem wellFormed_of_frame_ge (h : c.frameLimit ≤ f.toNat) :
    ∀ i ∈ [Instr.tlbInsert a f, .ptInsert a f, .frameLoad f a, .frameRead f a], wellFormed c i = false := by
  simp [wellFormed, frameInRange, h]

theorem wellFormed_frameRead_of_offset_ge (h : c.pageSize ≤ a.toNat) : wellFormed c (.frameRead f a) = false := by
  simp [wellFormed, offsetInRange, h]

theorem wellFormed_tlbRead_of_slot_ge (h : c.tlbCap ≤ a.toNat) : wellFormed c (.tlbRead a) = false := by
  simp [wellFormed, slotInRange, h]

theorem wellFormed_statsRead_of_selector_gt (h : 5 < a.toNat) : wellFormed c (.statsRead a) = false := by
  simp [wellFormed, selectorInRange, h]

end

/-- Settles O12: each operand kind out of its range makes the command ill formed, and such a command is raised. -/
theorem outOfRangeOperandsAreAnswered : Obligations.OutOfRangeOperandsAreAnswered := by
  intro s a f
  refine ⟨fun hpage i hi => ?_, fun hframe i hi => ?_, fun hoffset => ?_, fun hslot => ?_, fun hsel => ?_⟩
  · exact exec_of_not_wellFormed (wellFormed_of_page_ge hpage i hi)
  · exact exec_of_not_wellFormed (wellFormed_of_frame_ge hframe i hi)
  · exact exec_of_not_wellFormed (wellFormed_frameRead_of_offset_ge hoffset)
  · exact exec_of_not_wellFormed (wellFormed_tlbRead_of_slot_ge hslot)
  · exact exec_of_not_wellFormed (wellFormed_statsRead_of_selector_gt hsel)

end Sys2Proof.Machine
end

section
/-! The spec's own examples: the words of 30_encoding.md R118, and the pseudo-instructions of R117. -/
namespace Sys2Proof.Machine
open Sys2Proof

/-- Settles O1: each example word is evaluated as an encoding, and `decodeWord_encode` gives its decoding. -/
theorem exampleWordsMeanWhatTheSpecSays : Obligations.ExampleWordsMeanWhatTheSpecSays := by
  refine ⟨?translate, ?translateHighBits, ?tlbInsert, ?frameRead, ?frameAlloc, ?statsRead, ?responses⟩
  case responses => decide
  all_goals exact decode_and_encode_of_encode_eq (by decide)

/-- A pseudo-instruction without operands is assembled as the STATS_READ of its selector (R117). -/
theorem assembleLine_pseudo :
    ∀ p ∈ pseudoTable, assembleLine p.1 = (assembleCommand .statsRead [p.2]).map some := by
  decide

/-- A STATS_READ line with a one-digit selector (R116). -/
theorem assembleLine_statsRead :
    ∀ sel < 6, assembleLine ("STATS_READ ".toList ++ Nat.toDigits 10 sel) =
      (assembleCommand .statsRead [sel]).map some := by
  decide

/-- The word assembled for a STATS_READ decodes to it, for every selector that fits its field. -/
theorem decodeWord_of_assembleCommand_statsRead {sel : Nat} {w : Word64}
    (h : assembleCommand .statsRead [sel] = .ok w) : decodeWord w = .ok (.statsRead (BitVec.ofNat 32 sel)) := by
  simp only [assembleCommand, assembleFields] at h
  split at h
  · cases h
  · cases h
    exact decodeWord_encode (.statsRead (BitVec.ofNat 32 sel))

theorem assembleLine_pseudo_eq_statsRead (sel : Nat) (hsel : sel < 6) {name : List Char}
    (h : (name, sel) ∈ pseudoTable) :
    assembleLine name = assembleLine ("STATS_READ ".toList ++ Nat.toDigits 10 sel) :=
  (assembleLine_pseudo _ h).trans (assembleLine_statsRead sel hsel).symm

/-- Settles O8: both lines assemble as the command STATS_READ with the table's selector. -/
theorem pseudoInstructionsAreStatsReads : Obligations.PseudoInstructionsAreStatsReads := by
  refine ⟨?hits, ?faults, ?lookups, ?tlbCount, ?freeNext, ?victim,
    fun sel _ w hw => decodeWord_of_assembleCommand_statsRead hw, rfl⟩
  case hits => exact assembleLine_pseudo_eq_statsRead 0 (by decide) (by decide)
  case faults => exact assembleLine_pseudo_eq_statsRead 1 (by decide) (by decide)
  case lookups => exact assembleLine_pseudo_eq_statsRead 2 (by decide) (by decide)
  case tlbCount => exact assembleLine_pseudo_eq_statsRead 3 (by decide) (by decide)
  case freeNext => exact assembleLine_pseudo_eq_statsRead 4 (by decide) (by decide)
  case victim => exact assembleLine_pseudo_eq_statsRead 5 (by decide) (by decide)

end Sys2Proof.Machine
end

section
/-! The address decomposer as arithmetic (40_address_codec.md R142): page and offset name the address modulo the size
of the logical space, so valid addresses are exactly those they give back. -/
namespace Sys2Proof.Machine
open Sys2Proof

/-- The logical space holds `NUM_PAGES` pages of `PAGE_SIZE` bytes. -/
theorem two_pow_pnBits_add_offsetBits (c : Config) :
    2 ^ (c.pnBits + c.offsetBits) = c.pageSize * c.numPages := by
  rw [Nat.pow_add, Nat.mul_comm, Config.pageSize, Config.numPages]

section
variable (c : Config) (la : OperandA)

theorem decompose_page_mul_add_offset :
    (decompose c la).1 * c.pageSize + (decompose c la).2 = la.toNat % 2 ^ (c.pnBits + c.offsetBits) := by
  rw [decompose_page, decompose_offset, two_pow_pnBits_add_offsetBits, Nat.mod_mul, Nat.mul_comm, Nat.add_comm]

theorem decompose_page_eq_div_iff :
    (decompose c la).1 = la.toNat / c.pageSize ↔ la.toNat < 2 ^ (c.pnBits + c.offsetBits) := by
  rw [decompose_page, Nat.mod_eq_iff_lt (numPages_pos c).ne', Nat.div_lt_iff_lt_mul (pageSize_pos c), Nat.mul_comm,
    two_pow_pnBits_add_offsetBits]

theorem decompose_page_mul_add_offset_eq_iff :
    (decompose c la).1 * c.pageSize + (decompose c la).2 = la.toNat ↔
      la.toNat < 2 ^ (c.pnBits + c.offsetBits) := by
  rw [decompose_page_mul_add_offset, Nat.mod_eq_iff_lt (Nat.two_pow_pos _).ne']

/-- The decomposer discards the address bits above the logical space. -/
theorem decompose_mod_two_pow :
    decompose c (BitVec.ofNat 32 (la.toNat % 2 ^ (c.pnBits + c.offsetBits))) = decompose c la := by
  have hfits : la.toNat % 2 ^ (c.pnBits + c.offsetBits) < 2 ^ 32 := (Nat.mod_le _ _).trans_lt la.isLt
  apply Prod.ext
  · rw [decompose_page, decompose_page, BitVec.toNat_ofNat, Nat.mod_eq_of_lt hfits, two_pow_pnBits_add_offsetBits,
      Nat.mod_mul_right_div_self, Nat.mod_mod]
  · rw [decompose_offset, decompose_offset, BitVec.toNat_ofNat, Nat.mod_eq_of_lt hfits,
      two_pow_pnBits_add_offsetBits, Nat.mod_mul_right_mod]

end

/-- Settles O16: page and offset give back the address modulo the logical space, so the page is the quotient and the
address is given back exactly when the address is valid. -/
theorem decomposeOfValidAddresses : Obligations.DecomposeOfValidAddresses := by
  refine fun c la _ => ⟨fun hvalid => ?_, fun hinvalid => ?_⟩
  · exact ⟨decompose_offset c la, (decompose_page_eq_div_iff c la).mpr hvalid,
      (decompose_page_mul_add_offset_eq_iff c la).mpr hvalid⟩
  · exact ⟨decompose_offset c la, mt (decompose_page_eq_div_iff c la).mp hinvalid.not_gt,
      mt (decompose_page_mul_add_offset_eq_iff c la).mp hinvalid.not_gt, (decompose_mod_two_pow c la).symm⟩

end Sys2Proof.Machine
end

section
/-! The TLB over sequences of updates (41_tlb.md R156, R157). First in, first out is stated with the library's
`List.rtake cap`, the last `cap` entries of a list: inserting an absent page appends it and keeps the last `cap`. -/
namespace Sys2Proof.Machine
open Sys2Proof

/-- Settles O18: each update keeps the bound and the uniqueness, so a sequence does, by induction. -/
theorem tlbUpdatesKeepCapacityAndUniqueness : Obligations.TlbUpdatesKeepCapacityAndUniqueness := by
  intro cap us
  induction us with
  | nil => exact fun tlb _ hlen hu => ⟨hlen, hu⟩
  | cons u us ih =>
    intro tlb hcap hlen hu
    cases u with
    | insert p f => exact ih _ hcap (tlbInsert_length hcap hlen p f) (tlbInsert_unique hu p f)
    | invalidateFrame f =>
      exact ih _ hcap ((tlbInvalidateFrame_length tlb f).trans hlen) (tlbInvalidateFrame_unique hu f)

/-- Rule R153. -/
theorem tlbInsert_of_absent_of_lt {cap : Nat} {t : List TlbEntry} {p : Nat} (f : FrameNo)
    (habsent : ∀ e ∈ t, e.page ≠ p) (hfree : t.length < cap) :
    tlbInsert cap t p f = ⟨t ++ [⟨p, f⟩], none, none⟩ := by
  simp [tlbInsert, tlbLookup_eq_none.mpr habsent, hfree]

/-- Rule R154. -/
theorem tlbInsert_of_absent_of_ge {cap : Nat} {t : List TlbEntry} {p : Nat} (f : FrameNo)
    (habsent : ∀ e ∈ t, e.page ≠ p) (hfull : cap ≤ t.length) :
    tlbInsert cap t p f = ⟨t.tail ++ [⟨p, f⟩], none, t.head?⟩ := by
  simp [tlbInsert, tlbLookup_eq_none.mpr habsent, hfull.not_gt]

theorem tlbInsert_tlb_eq_rtake {cap : Nat} {t : List TlbEntry} {p : Nat} (f : FrameNo) (hcap : 1 ≤ cap)
    (hlen : t.length ≤ cap) (habsent : ∀ e ∈ t, e.page ≠ p) :
    (tlbInsert cap t p f).tlb = (t ++ [TlbEntry.mk p f]).rtake cap := by
  rcases hlen.lt_or_eq with hfree | hfull
  · have hkeep : (t ++ [TlbEntry.mk p f]).length - cap = 0 := by rw [List.length_append, List.length_singleton]; omega
    rw [tlbInsert_of_absent_of_lt f habsent hfree, List.rtake, hkeep, List.drop_zero]
  · have hone : (t ++ [TlbEntry.mk p f]).length - cap = 1 := by rw [List.length_append, List.length_singleton]; omega
    rw [tlbInsert_of_absent_of_ge f habsent hfull.ge, List.rtake, hone,
      List.drop_append_of_le_length (hcap.trans hfull.ge), List.drop_one]

/-- What fell out of the last `n` elements before never comes back. -/
theorem rtake_rtake_append {α : Type} (n : Nat) (l m : List α) : (l.rtake n ++ m).rtake n = (l ++ m).rtake n := by
  simp only [List.rtake_eq_reverse_take_reverse, List.reverse_append, List.reverse_reverse, List.take_append,
    List.take_take, List.length_reverse]
  rw [Nat.min_eq_left (Nat.sub_le _ _)]

theorem runTlbUpdates_inserts_eq_rtake {cap : Nat} (hcap : 1 ≤ cap) (es : List TlbEntry) :
    ∀ t : List TlbEntry, t.length ≤ cap → ((t ++ es).map TlbEntry.page).Nodup →
      runTlbUpdates cap (es.map fun e => .insert e.page e.frame) t = (t ++ es).rtake cap := by
  induction es with
  | nil =>
    intro t hlen _
    simp [runTlbUpdates, List.rtake, Nat.sub_eq_zero_of_le hlen]
  | cons e es ih =>
    intro t hlen hu
    have habsent : ∀ x ∈ t, x.page ≠ e.page := by
      rw [List.map_append, List.nodup_append] at hu
      obtain ⟨-, -, hdisjoint⟩ := hu
      exact fun x hx => hdisjoint _ (List.mem_map_of_mem hx) _ List.mem_cons_self
    have hinsert := tlbInsert_tlb_eq_rtake e.frame hcap hlen habsent
    have hkept : ((t ++ [e]).rtake cap ++ es).Sublist (t ++ e :: es) := by
      rw [List.append_cons t e es]
      exact (List.drop_sublist _ _).append_right es
    calc runTlbUpdates cap ((e :: es).map fun e => .insert e.page e.frame) t
        = runTlbUpdates cap (es.map fun e => .insert e.page e.frame) ((t ++ [e]).rtake cap) := by
          rw [List.map_cons, runTlbUpdates, hinsert]
      _ = ((t ++ [e]).rtake cap ++ es).rtake cap :=
          ih _ (hinsert ▸ tlbInsert_length hcap hlen e.page e.frame) (hu.sublist (hkept.map _))
      _ = (t ++ e :: es).rtake cap := by rw [rtake_rtake_append, ← List.append_cons]

/-- Settles O19: the full insert is R154's case, and the distinct inserts leave `List.rtake cap`. -/
theorem tlbIsFifo : Obligations.TlbIsFifo := by
  refine ⟨fun cap e0 rest p f hfull habsent => ?_, fun cap es hcap hu => ?_⟩
  · exact tlbInsert_of_absent_of_ge f habsent hfull.ge
  · exact runTlbUpdates_inserts_eq_rtake hcap es [] (Nat.zero_le cap) hu

/-- Settles O43: in every case of either command the next state is `s` answered, with the inserted TLB at most. -/
theorem tlbCommandsTouchOnlyTheTlb : Obligations.TlbCommandsTouchOnlyTheTlb := by
  intro page f s
  refine ⟨?insert, ?lookup⟩
  case insert =>
    rcases exec_tlbInsert_cases page f s with ⟨-, -, he⟩ | ⟨-, he⟩
    · exact ⟨_, he, rfl⟩
    · exact ⟨_, he, rfl⟩
  case lookup =>
    rcases exec_tlbLookup_cases page s with ⟨-, g, -, he⟩ | ⟨-, -, he⟩ | ⟨-, he⟩
    · exact ⟨_, he, rfl⟩
    · exact ⟨_, he, rfl⟩
    · exact ⟨_, he, rfl⟩

end Sys2Proof.Machine
end

section
/-! The page table over sequences of updates (42_page_table.md R183). The statement takes any list of mappings as the
page table, so these lemmas, unlike `ptLookup_ptInvalidateFrame`, do not ask for rising pages. -/
namespace Sys2Proof.Machine
open Sys2Proof

/-- The mapping a lookup finds is the first of its page; when it is kept, every mapping before it is of another page. -/
theorem ptLookup_ptInvalidateFrame_of_ne {t : PageTable} {p : Nat} {f g : FrameNo} (hmapped : ptLookup t p = some f)
    (hother : g ≠ f) : ptLookup (ptInvalidateFrame t g) p = some f := by
  induction t with
  | nil => exact hmapped
  | cons e t ih =>
    obtain ⟨q, k⟩ := e
    by_cases hq : q = p
    · have hfirst : k = f := by simpa [ptLookup, hq] using hmapped
      simp [ptInvalidateFrame, ptLookup, hq, hfirst, hother.symm]
    · have hrest : ptLookup (ptInvalidateFrame t g) p = some f := ih (by simpa [ptLookup, hq] using hmapped)
      by_cases hg : k = g
      · simpa [ptInvalidateFrame, hg] using hrest
      · simpa [ptInvalidateFrame, ptLookup, hg, hq] using hrest

theorem ptLookup_ptSet_of_ne (t : PageTable) {p q : Nat} (g : FrameNo) (hother : q ≠ p) :
    ptLookup (ptSet t q g) p = ptLookup t p := by
  rw [ptLookup_ptSet, if_neg hother.symm]

theorem ptLookup_runPtUpdates {p : Nat} {f : FrameNo} {us : List PtUpdate}
    (hkeep : ∀ u ∈ us, (∀ q g, u = .insert q g → q ≠ p) ∧ (∀ g, u = .invalidateFrame g → g ≠ f)) :
    ∀ t : PageTable, ptLookup t p = some f → ptLookup (runPtUpdates us t) p = some f := by
  induction us with
  | nil => exact fun _ hmapped => hmapped
  | cons u us ih =>
    intro t hmapped
    rw [List.forall_mem_cons] at hkeep
    obtain ⟨⟨hpage, hframe⟩, hrest⟩ := hkeep
    cases u with
    | insert q g => exact ih hrest _ ((ptLookup_ptSet_of_ne t g (hpage q g rfl)).trans hmapped)
    | invalidateFrame g => exact ih hrest _ (ptLookup_ptInvalidateFrame_of_ne hmapped (hframe g rfl))

/-- Settles O24: the insert maps the page, and each update that follows keeps the mapping. -/
theorem pageStaysMapped : Obligations.PageStaysMapped := by
  intro pt p f us hkeep
  have hmapped : ptLookup (ptInsert pt p f).1 p = some f := (ptLookup_ptSet pt p f p).trans (if_pos rfl)
  exact ptLookup_runPtUpdates hkeep _ hmapped

end Sys2Proof.Machine
end

section
/-! The frame allocator (43_frames.md R201 to R205). Its allocation-order queue is the list of the allocated frames
rotated by `VICTIM`, so the reclaim path rotates the queue by one. -/
namespace Sys2Proof.Machine
open Sys2Proof

/-- Settles O30: each table keeps exactly the entries of the other frames. -/
theorem shootdownRemovesTheFrame : Obligations.ShootdownRemovesTheFrame :=
  fun _ f hrising => ⟨ptLookup_ptInvalidateFrame hrising f, fun _ => mem_tlbInvalidateFrame, rfl⟩

theorem frameLimit_lt_of_wellFormed {c : Config} (hc : c.WellFormed) : c.frameLimit < 2 ^ 16 := by
  obtain ⟨-, -, -, -, -, -, -, hlt, -⟩ := hc
  exact hlt

section
variable {s : State}

/-! ### The two paths of the allocator -/

theorem frameAlloc_of_free (hlt : s.freeNext.toNat < s.cfg.frameLimit) :
    frameAlloc s = ⟨{ s with freeNext := s.freeNext + 1 }, s.freeNext, false⟩ := if_pos hlt

theorem frameAlloc_of_exhausted (hfull : s.freeNext.toNat = s.cfg.frameLimit) :
    frameAlloc s = ⟨frameShootdown
      { s with victim := BitVec.ofNat 16 ((s.victim.toNat + 1) % s.cfg.frameLimit) } s.victim,
      s.victim, true⟩ := if_neg hfull.not_lt

/-- `FREE_NEXT` advances without wrapping in its 16 bits. -/
theorem frameAlloc_freeNext_of_free (hs : s.Legal) (hlt : s.freeNext.toNat < s.cfg.frameLimit) :
    (frameAlloc s).st.freeNext.toNat = s.freeNext.toNat + 1 := by
  have hlimit := frameLimit_lt_of_wellFormed hs.config
  have hfits : s.freeNext.toNat + 1 < 2 ^ 16 := by omega
  rw [frameAlloc_of_free hlt]
  exact BitVec.toNat_add_of_lt hfits

/-- The advanced `VICTIM` fits its 16 bits. -/
theorem frameAlloc_victim_of_exhausted (hs : s.Legal) (hfull : s.freeNext.toNat = s.cfg.frameLimit) :
    (frameAlloc s).st.victim.toNat = (s.victim.toNat + 1) % s.cfg.frameLimit := by
  have hmod := Nat.mod_lt (s.victim.toNat + 1) (Nat.zero_lt_of_lt hs.victim_range)
  rw [frameAlloc_of_exhausted hfull]
  exact Nat.mod_eq_of_lt (hmod.trans (frameLimit_lt_of_wellFormed hs.config))

/-! ### The allocation-order queue -/

theorem allocQueue_of_free (hlt : s.freeNext.toNat < s.cfg.frameLimit) :
    allocQueue s = List.range s.freeNext.toNat := if_pos hlt

/-- R205's invariant on `Q`, both of its cases at once. -/
theorem allocQueue_eq_rotate (hfree : s.freeNext.toNat ≤ s.cfg.frameLimit)
    (hvictim : s.victim.toNat ≤ s.cfg.frameLimit)
    (hzero : s.freeNext.toNat < s.cfg.frameLimit → s.victim = 0) :
    allocQueue s = (List.range s.freeNext.toNat).rotate s.victim.toNat := by
  rcases hfree.lt_or_eq with hlt | hfull
  · simp [allocQueue_of_free hlt, hzero hlt]
  · rw [allocQueue, if_neg hfull.not_lt, hfull, List.rotate_eq_drop_append_take (by simpa using hvictim),
      List.take_range, min_eq_left hvictim]
    simp [List.range_eq_range', List.drop_range']

theorem allocQueue_of_exhausted (hs : s.Legal) (hfull : s.freeNext.toNat = s.cfg.frameLimit) :
    allocQueue s = (List.range s.cfg.frameLimit).rotate s.victim.toNat := by
  rw [allocQueue_eq_rotate hs.freeNext_range hs.victim_range.le hs.victim_zero, hfull]

/-- The head of the queue is `VICTIM` once no frame is free (R205). -/
theorem allocQueue_head?_of_exhausted (hs : s.Legal) (hfull : s.freeNext.toNat = s.cfg.frameLimit) :
    (allocQueue s).head? = some s.victim.toNat := by
  have hvictim := hs.victim_range
  rw [allocQueue_of_exhausted hs hfull, List.head?_rotate (by simpa using hvictim)]
  exact List.getElem?_range hvictim

/-- The free path appends its frame to the queue (R205), also when it takes the last free frame. -/
theorem allocQueue_frameAlloc_of_free (hs : s.Legal) (hlt : s.freeNext.toNat < s.cfg.frameLimit) :
    allocQueue (frameAlloc s).st = allocQueue s ++ [s.freeNext.toNat] := by
  have hfree := frameAlloc_freeNext_of_free hs hlt
  have hvictim : (frameAlloc s).st.victim = 0 := by rw [frameAlloc_of_free hlt]; exact hs.victim_zero hlt
  rw [allocQueue_eq_rotate (by rw [hfree, frameAlloc_cfg]; exact hlt) (by simp [hvictim]) fun _ => hvictim]
  simp [hfree, hvictim, List.range_succ, allocQueue_of_free hlt]

/-- The reclaim path rotates the queue by one (R205). -/
theorem allocQueue_frameAlloc_of_exhausted (hs : s.Legal) (hfull : s.freeNext.toNat = s.cfg.frameLimit) :
    allocQueue (frameAlloc s).st = (allocQueue s).rotate 1 := by
  have hvictim := frameAlloc_victim_of_exhausted hs hfull
  have hfree : (frameAlloc s).st.freeNext = s.freeNext := by rw [frameAlloc_of_exhausted hfull]; rfl
  have hmod := Nat.mod_lt (s.victim.toNat + 1) (Nat.zero_lt_of_lt hs.victim_range)
  calc allocQueue (frameAlloc s).st
      = (List.range s.cfg.frameLimit).rotate ((s.victim.toNat + 1) % s.cfg.frameLimit) := by
        rw [allocQueue_eq_rotate, hvictim, hfree, hfull] <;> simp [hvictim, hfree, hfull, hmod.le]
    _ = (List.range s.cfg.frameLimit).rotate (s.victim.toNat + 1) := by
        simpa using List.rotate_mod (List.range s.cfg.frameLimit) (s.victim.toNat + 1)
    _ = (allocQueue s).rotate 1 := by rw [allocQueue_of_exhausted hs hfull, List.rotate_rotate]

end

theorem allocQueue_boot (c : Config) : allocQueue (State.boot c) = [] := by
  rw [allocQueue_eq_rotate] <;> simp

/-- Settles O31: the free path appends to the queue, and the reclaim path rotates it by one, which moves its head
`VICTIM` to the back. -/
theorem allocatorIsFifo : Obligations.AllocatorIsFifo := by
  refine ⟨fun c _ => allocQueue_boot c, fun s hs => ⟨fun hlt => ?free, fun hfull => ?exhausted⟩⟩
  case free =>
    refine ⟨allocQueue_of_free hlt, hs.victim_zero hlt, ?_, ?_⟩
    · rw [frameAlloc_of_free hlt]
    · rw [allocQueue_frameAlloc_of_free hs hlt, frameAlloc_of_free hlt]
  case exhausted =>
    obtain ⟨rest, hqueue⟩ := List.head?_eq_some_iff.mp (allocQueue_head?_of_exhausted hs hfull)
    have hframe : (frameAlloc s).frame = s.victim := by rw [frameAlloc_of_exhausted hfull]
    have hrotate : allocQueue (frameAlloc s).st = rest ++ [s.victim.toNat] := by
      rw [allocQueue_frameAlloc_of_exhausted hs hfull, hqueue, List.rotate_cons_succ, List.rotate_zero]
    rw [hframe]
    refine ⟨rfl, ?_, rest, hqueue, hrotate, frameAlloc_victim_of_exhausted hs hfull⟩
    rw [frameAlloc_of_exhausted hfull]

end Sys2Proof.Machine
end

section
/-! TRANSLATE when the page is not in the store (44_translate.md R248), and what it reads in a coherent state (R253):
on each path that settles a frame every byte of that frame has been written since reset. -/
namespace Sys2Proof.Machine
open Sys2Proof

theorem exec_translate_of_resolve_error {la : OperandA} {s : State} {e : XbError}
    (h : resolve s (decompose s.cfg la).1 = .error e) : exec (.translate la) s = .next (raise e s) := by
  show execTranslate la s = _
  simp only [execTranslate, h]
  rfl

/-! ### The page is not in the store -/

theorem resolve_of_missing {s : State} {p : Nat} (htlb : ∀ e ∈ s.tlb, e.page ≠ p) (hpt : ∀ e ∈ s.pt, e.1 ≠ p)
    (hstore : s.cfg.storeLen < (p + 1) * s.cfg.pageSize) : resolve s p = .error .storeReadError := by
  simp [resolve, tlbLookup_eq_none.mpr htlb, ptLookup_eq_none.mpr hpt, resolveFault, storeRead_error hstore,
    bind, Except.bind]

/-- The response before it does not show in what a command does: both sides are `s` with the host's fields replaced,
by the same inputs. -/
theorem exec_with_response (i : Instr) (s : State) (r : Option Word64) :
    exec i { s with response := r } = exec i s :=
  calc exec i (s.withHost s.inputs r)
      = outcomeWithInputs s.inputs (exec i s) := exec_withHost s s.inputs r i
    _ = exec i (s.withHost s.inputs s.response) := (exec_withHost s s.inputs s.response i).symm

/-- Settles O38: the page-fault path ends in the error `raise` answers, which leaves only the response behind, and no
command reads that. -/
theorem translateOfAMissingPageChangesNothing : Obligations.TranslateOfAMissingPageChangesNothing := by
  refine fun la s htlb hpt hstore => ⟨?_, fun i => ?_⟩
  · exact exec_translate_of_resolve_error (resolve_of_missing htlb hpt hstore)
  · obtain ⟨t, ht⟩ := exec_eq_next i s
    exact ⟨t, (exec_with_response i s _).trans ht, ht⟩

/-! ### What a settled path reads -/

theorem resolve_ok_cfg {s : State} {p : Nat} {q : Resolution} (h : resolve s p = .ok q) : q.st.cfg = s.cfg := by
  rcases resolve_cases s p with ⟨f, -, he⟩ | ⟨f, -, -, he⟩ | ⟨-, -, -, he⟩ | ⟨-, -, -, he⟩ <;> rw [he] at h <;> cases h
  · rfl
  · rfl
  · exact faultState_cfg s p

/-- A coherent state has the mapped frame's bytes written (R250 I3). -/
theorem Coherent.get?_frame_isSome {s : State} (hs : Coherent s) {p o : Nat} {f : FrameNo}
    (hmapped : ptLookup s.pt p = some f) (ho : o < s.cfg.pageSize) :
    (Memory.get? s.frame (physAddr s.cfg f o)).isSome := by
  obtain ⟨b, -, hb⟩ := hs.frames_hold _ (ptLookup_mem hmapped) o ho
  exact Option.isSome_of_eq_some hb

/-- The page-fault path writes its frame before TRANSLATE reads it (R243). -/
theorem get?_faultState_frame_isSome {s : State} {p o : Nat} (hstore : (p + 1) * s.cfg.pageSize ≤ s.cfg.storeLen)
    (ho : o < s.cfg.pageSize) :
    (Memory.get? (faultState s p).frame (physAddr s.cfg (frameAlloc s).frame o)).isSome := by
  have hinside : physAddr s.cfg (frameAlloc s).frame 0 ≤ physAddr s.cfg (frameAlloc s).frame o ∧
      physAddr s.cfg (frameAlloc s).frame o < physAddr s.cfg (frameAlloc s).frame 0 + (storePage s.cfg p).length := by
    rw [storePage_length hstore]
    simp only [physAddr]
    omega
  have hoffset : physAddr s.cfg (frameAlloc s).frame o - physAddr s.cfg (frameAlloc s).frame 0 = o :=
    Nat.add_sub_cancel_left ..
  rw [faultState_frame, Memory.get?_writeBlock, if_pos hinside, hoffset]
  exact storePage_getElem?_isSome hstore ho

/-- R253: whichever path settles the frame, each of its bytes has been written since reset. -/
theorem Coherent.get?_resolve_isSome {s : State} (hs : Coherent s) {p o : Nat} {q : Resolution}
    (h : resolve s p = .ok q) (ho : o < s.cfg.pageSize) :
    (Memory.get? q.st.frame (physAddr s.cfg q.frame o)).isSome := by
  rcases resolve_cases s p with ⟨f, htlb, he⟩ | ⟨f, -, hpt, he⟩ | ⟨-, -, hstore, he⟩ | ⟨-, -, -, he⟩ <;>
    rw [he] at h <;> cases h
  · exact hs.get?_frame_isSome (hs.tlb_agrees _ (tlbLookup_mem htlb)) ho
  · exact hs.get?_frame_isSome hpt ho
  · exact get?_faultState_frame_isSome hstore ho

/-! ### The address in the response -/

theorem respStatus_errorWord_ne_zero (e : XbError) : respStatus (errorWord e) ≠ 0 := by
  cases e <;> decide

theorem respRes0_okWord (reply : Reply) : respRes0 (okWord reply) = reply.res0 := by
  obtain ⟨-, -, -, -, -, -, hres0⟩ := okWord_fields reply
  exact hres0

/-- R10 keeps the physical addresses inside the 32 bits of `RES0` (R246). -/
theorem res0OfNat_physAddr_toNat {c : Config} (hc : c.WellFormed) {f : FrameNo} {o : Nat}
    (hf : f.toNat < c.frameLimit) (ho : o < c.pageSize) :
    (res0OfNat (physAddr c f o)).toNat = physAddr c f o := by
  obtain ⟨-, -, -, -, -, -, -, -, hspace, -⟩ := hc
  have hlt : physAddr c f o < 2 ^ 32 := by
    calc f.toNat * c.pageSize + o
        < (f.toNat + 1) * c.pageSize := by rw [Nat.succ_mul]; omega
      _ ≤ c.frameLimit * c.pageSize := Nat.mul_le_mul_right _ hf
      _ ≤ 2 ^ 32 := hspace
  rw [res0OfNat_small hlt, BitVec.toNat_ofNat, Nat.mod_eq_of_lt hlt]

/-! ### Another draw of the frame contents -/

/-- The state with another draw of `FRAME_INIT` in force (10_state.md R44, log entry 4). -/
def State.withDraw (s : State) (d : Nat) : State := { s with draw := d }

section
variable (s : State) (d : Nat)

@[simp] theorem State.withDraw_cfg : (s.withDraw d).cfg = s.cfg := rfl
@[simp] theorem State.withDraw_tlb : (s.withDraw d).tlb = s.tlb := rfl
@[simp] theorem State.withDraw_pt : (s.withDraw d).pt = s.pt := rfl

/-- A byte written since reset reads the same under every draw (R44). -/
theorem memRead_withDraw {s : State} {pa : Nat} (h : (Memory.get? s.frame pa).isSome) (d : Nat) :
    memRead (s.withDraw d) pa = memRead s pa := by
  obtain ⟨b, hb⟩ := Option.isSome_iff_exists.mp h
  simp [memRead, State.withDraw, hb]

theorem frameAlloc_withDraw :
    frameAlloc (s.withDraw d) = { frameAlloc s with st := (frameAlloc s).st.withDraw d } := by
  unfold frameAlloc
  by_cases hfree : s.freeNext.toNat < s.cfg.frameLimit
  · rw [if_pos hfree]
    exact if_pos hfree
  · rw [if_neg hfree]
    exact if_neg hfree

/-- TRANSLATE settles the same frame and flags by the same path under every draw. -/
theorem resolve_withDraw (p : Nat) :
    resolve (s.withDraw d) p = (resolve s p).map fun q => { q with st := q.st.withDraw d } := by
  unfold resolve
  rw [State.withDraw_tlb, State.withDraw_pt]
  cases tlbLookup s.tlb p with
  | some f => rfl
  | none =>
    cases ptLookup s.pt p with
    | some f => rfl
    | none =>
      simp only [resolveFault, frameAlloc_withDraw, State.withDraw_cfg]
      cases storeRead s.cfg p <;> rfl

end

/-- In a coherent state TRANSLATE does the same under every draw, so no byte of `FRAME_INIT` shows in what it leaves. -/
theorem Coherent.exec_translate_withDraw {s t : State} (hs : Coherent s) {la : OperandA}
    (h : exec (.translate la) s = .next t) (d : Nat) :
    exec (.translate la) (s.withDraw d) = .next (t.withDraw d) := by
  have hresolve := resolve_withDraw s d (decompose s.cfg la).1
  cases hq : resolve s (decompose s.cfg la).1 with
  | error e =>
    rw [hq] at hresolve
    rw [exec_translate_of_resolve_error hq] at h
    cases h
    exact exec_translate_of_resolve_error hresolve
  | ok q =>
    rw [hq] at hresolve
    have hcfg := resolve_ok_cfg hq
    have hread := memRead_withDraw (hs.get?_resolve_isSome hq (decompose_offset_lt s.cfg la)) d
    rw [exec_translate_of_resolve hq hcfg] at h
    rw [exec_translate_of_resolve hresolve hcfg, State.withDraw_cfg, hread]
    split at h <;> cases h
    next hf => exact if_pos hf
    next hf => exact if_neg hf

/-- A completed TRANSLATE in a legal, coherent state answers an address written since reset. -/
theorem Coherent.get?_respRes0_isSome {s t : State} (hs : Coherent s) (hc : s.cfg.WellFormed) {la : OperandA}
    {r : Word64} (h : exec (.translate la) s = .next t) (hr : t.response = some r) (hok : respStatus r = 0) :
    (Memory.get? t.frame (respRes0 r).toNat).isSome := by
  rcases exec_translate_cases la s with ⟨q, hq, -, hf, he⟩ | ⟨q, -, -, he⟩ | ⟨-, he⟩ <;> rw [he] at h <;> cases h <;>
    cases hr
  · have ho := decompose_offset_lt s.cfg la
    rw [respRes0_okWord, res0OfNat_physAddr_toNat hc hf ho]
    exact hs.get?_resolve_isSome hq ho
  · exact absurd hok (respStatus_errorWord_ne_zero _)
  · exact absurd hok (respStatus_errorWord_ne_zero _)

/-- Settles O59: the byte TRANSLATE reads is a written one, so its response is the same under every draw. -/
theorem translateNeverShowsTheInitialFrames : Obligations.TranslateNeverShowsTheInitialFrames := by
  intro la s t r hlegal hs h hr
  exact ⟨hs.get?_respRes0_isSome hlegal.config h hr, fun d => ⟨t.withDraw d, hs.exec_translate_withDraw h d, hr⟩⟩

end Sys2Proof.Machine
end

section
/-! The counters (45_stats.md R270, 44_translate.md R244). Every command but TRANSLATE leaves them; a TRANSLATE leaves
them on the path it takes and counts once, with the flags of its response, when it answers OK. -/
namespace Sys2Proof.Machine
open Sys2Proof

/-- The second state has the first one's `HITS`, `FAULTS` and `LOOKUPS`. -/
def SameCounters (s t : State) : Prop := t.hits = s.hits ∧ t.faults = s.faults ∧ t.lookups = s.lookups

theorem SameCounters.countLookup {s u : State} (h : SameCounters s u) (hcfg : u.cfg = s.cfg) (hit fault : Bool) :
    SameCounters (countLookup s hit fault) (countLookup u hit fault) := by
  obtain ⟨hhits, hfaults, hlookups⟩ := h
  simp [SameCounters, hhits, hfaults, hlookups, hcfg]

theorem sameCounters_frameAlloc (s : State) : SameCounters s (frameAlloc s).st :=
  ⟨frameAlloc_hits s, frameAlloc_faults s, frameAlloc_lookups s⟩

theorem sameCounters_faultState (s : State) (p : Nat) : SameCounters s (faultState s p) :=
  ⟨faultState_hits s p, faultState_faults s p, faultState_lookups s p⟩

/-! ### Commands other than TRANSLATE -/

/-- A maintenance or pure command leaves the counters, whether it completes or is raised (R270). -/
theorem exec_sameCounters_of_not_translation {i : Instr} (hclass : commandClass i ≠ .translation) (s : State) :
    ∃ t, exec i s = .next t ∧ SameCounters s t := by
  cases i with
  | translate la => exact absurd rfl hclass
  | decode la => exact ⟨_, exec_decode la s, rfl, rfl, rfl⟩
  | tlbLookup page =>
    rcases exec_tlbLookup_cases page s with ⟨-, f, -, he⟩ | ⟨-, -, he⟩ | ⟨-, he⟩ <;> exact ⟨_, he, rfl, rfl, rfl⟩
  | tlbInsert page frame =>
    rcases exec_tlbInsert_cases page frame s with ⟨-, -, he⟩ | ⟨-, he⟩ <;> exact ⟨_, he, rfl, rfl, rfl⟩
  | tlbRead index =>
    rcases exec_tlbRead_cases index s with ⟨-, e, -, he⟩ | ⟨-, -, he⟩ | ⟨-, he⟩ <;> exact ⟨_, he, rfl, rfl, rfl⟩
  | ptLookup page =>
    rcases exec_ptLookup_cases page s with ⟨-, f, -, he⟩ | ⟨-, -, he⟩ | ⟨-, he⟩ <;> exact ⟨_, he, rfl, rfl, rfl⟩
  | ptInsert page frame =>
    rcases exec_ptInsert_cases page frame s with ⟨-, -, he⟩ | ⟨-, he⟩ <;> exact ⟨_, he, rfl, rfl, rfl⟩
  | frameAlloc => exact ⟨_, exec_frameAlloc s, sameCounters_frameAlloc s⟩
  | frameLoad frame page =>
    rcases exec_frameLoad_cases frame page s with ⟨-, -, -, he⟩ | ⟨-, -, -, he⟩ | ⟨-, he⟩ <;>
      exact ⟨_, he, rfl, rfl, rfl⟩
  | frameRead frame offset =>
    rcases exec_frameRead_cases frame offset s with ⟨-, -, he⟩ | ⟨-, he⟩ <;> exact ⟨_, he, rfl, rfl, rfl⟩
  | statsRead sel =>
    rcases exec_statsRead_cases sel s with ⟨-, he⟩ | ⟨-, he⟩ <;> exact ⟨_, he, rfl, rfl, rfl⟩

/-! ### TRANSLATE -/

theorem commandClass_eq_translation_iff {i : Instr} : commandClass i = .translation ↔ ∃ la, i = .translate la := by
  cases i <;> simp [commandClass]

/-- No path counts before TRANSLATE completes, and none is both a hit and a fault (R240, R244). -/
theorem resolve_ok_sameCounters {s : State} {p : Nat} {q : Resolution} (h : resolve s p = .ok q) :
    SameCounters s q.st ∧ ¬ (q.hit = true ∧ q.fault = true) := by
  rcases resolve_cases s p with ⟨f, -, he⟩ | ⟨f, -, -, he⟩ | ⟨-, -, -, he⟩ | ⟨-, -, -, he⟩ <;> rw [he] at h <;> cases h
  · exact ⟨⟨rfl, rfl, rfl⟩, by simp⟩
  · exact ⟨⟨rfl, rfl, rfl⟩, by simp⟩
  · exact ⟨sameCounters_faultState s p, by simp⟩

/-- TRANSLATE counts by the flags it answers, or answers an error and leaves the counters (R244, R270). -/
theorem exec_translate_counts {la : OperandA} {s t : State} {r : Word64} (h : exec (.translate la) s = .next t)
    (hr : t.response = some r) :
    (respStatus r = 0 ∧ SameCounters (countLookup s (respHit r) (respFault r)) t ∧
      ¬ (respHit r = true ∧ respFault r = true)) ∨
    (respStatus r ≠ 0 ∧ SameCounters s t) := by
  rcases exec_translate_cases la s with ⟨q, hq, hcfg, -, he⟩ | ⟨q, -, -, he⟩ | ⟨-, he⟩ <;> rw [he] at h <;> cases h <;>
    cases hr
  · obtain ⟨hsame, hflags⟩ := resolve_ok_sameCounters hq
    obtain ⟨hstatus, hhit, hfault, -⟩ := okWord_fields _
    rw [hhit, hfault]
    exact .inl ⟨hstatus, hsame.countLookup hcfg q.hit q.fault, hflags⟩
  · exact .inr ⟨respStatus_errorWord_ne_zero _, rfl, rfl, rfl⟩
  · exact .inr ⟨respStatus_errorWord_ne_zero _, rfl, rfl, rfl⟩

/-- Settles O46: a TRANSLATE counts exactly when its status is OK, and every other command leaves the counters. -/
theorem onlyCompletedTranslatesCount : Obligations.OnlyCompletedTranslatesCount := by
  intro i s t r _ hexec hr
  by_cases hclass : commandClass i = .translation
  · obtain ⟨la, rfl⟩ := commandClass_eq_translation_iff.mp hclass
    rcases exec_translate_counts hexec hr with ⟨hok, ⟨hhits, hfaults, hlookups⟩, hflags⟩ | ⟨herror, hsame⟩
    · exact ⟨fun _ _ => ⟨hhits, hfaults, hlookups, hflags⟩, fun h => absurd h (by simp [hclass, hok])⟩
    · exact ⟨fun _ hok => absurd hok herror, fun _ => hsame⟩
  · obtain ⟨u, hu, hsame⟩ := exec_sameCounters_of_not_translation hclass s
    cases hexec.symm.trans hu
    exact ⟨fun h => absurd h hclass, fun _ => hsame⟩

end Sys2Proof.Machine
end

section
/-! Errors change no state (60_exceptions.md R303): every request ends in `complete`, which commits a tentative state
only with the status OK and raises an error against the state before the command (00_scope.md R15). -/
namespace Sys2Proof.Machine
open Sys2Proof

theorem answerRequest_of_decodeWord_ok {w : Word64} {i : Instr} (h : decodeWord w = .ok i) (s : State) :
    answerRequest w s = exec i s := by
  rw [answerRequest, h]

/-- An illegal word ends as a command does, with its error raised (30_encoding.md R105). -/
theorem answerRequest_eq_complete (w : Word64) (s : State) : ∃ c, answerRequest w s = complete s c := by
  cases hw : decodeWord w with
  | ok i =>
    obtain ⟨c, hc⟩ := exec_eq_complete i s
    exact ⟨c, (answerRequest_of_decodeWord_ok hw s).trans hc⟩
  | error e => exact ⟨.error .illegalCommand, answerRequest_of_decodeWord_error hw s⟩

theorem respStatus_okWord (reply : Reply) : respStatus (okWord reply) = 0 := by
  obtain ⟨hstatus, -⟩ := okWord_fields reply
  exact hstatus

/-- A response with a nonzero status comes from `raise`, for a committed command answers OK (R303). -/
theorem complete_of_respStatus_ne_zero {s t : State} {c : Except XbError (State × Reply)} {r : Word64}
    (hc : complete s c = .next t) (hr : t.response = some r) (hstatus : respStatus r ≠ 0) :
    t = { s with response := some r } := by
  rcases complete_cases s c with ⟨u, reply, -, he⟩ | ⟨e, -, he⟩ <;> rw [he] at hc <;> cases hc <;> cases hr
  · exact absurd (respStatus_okWord reply) hstatus
  · rfl

/-- Settles O11: a request that answers a nonzero status ended in `raise`. -/
theorem errorsChangeNoState : Obligations.ErrorsChangeNoState := by
  intro w s t r hw hr hstatus
  obtain ⟨c, hc⟩ := answerRequest_eq_complete w s
  exact complete_of_respStatus_ne_zero (hc.symm.trans hw) hr hstatus

end Sys2Proof.Machine
end

section
/-! The two round trips of the encoder and the decoder (30_encoding.md section 1), a word sent as bytes (20_memory.md
R79), and the assembler's fields (R116). -/
namespace Sys2Proof.Machine
open Sys2Proof

/-! ### Decode after encode, encode after decode -/

/-- Settles O2: every encoded command passes the legality checks, and its fields build it again. -/
theorem decodeOfEncodeIsTheCommand : Obligations.DecodeOfEncodeIsTheCommand := decodeWord_encode

/-- An operand field survives the command unless its opcode has no such operand (R102). -/
theorem buildInstr_operandA {o : Opcode} {a : OperandA} (b : FrameNo) (h : usesA o = true ∨ a = 0) :
    (buildInstr o a b).operandA = a := by
  cases o with
  | frameAlloc => exact (h.resolve_left Bool.false_ne_true).symm
  | _ => rfl

theorem buildInstr_operandB {o : Opcode} (a : OperandA) {b : FrameNo} (h : usesB o = true ∨ b = 0) :
    (buildInstr o a b).operandB = b := by
  cases o with
  | tlbInsert | ptInsert | frameLoad | frameRead => rfl
  | _ => exact (h.resolve_left Bool.false_ne_true).symm

theorem encode_buildInstr_of_legalFor {w : Word64} {o : Opcode} (h : LegalFor w o) :
    encode (buildInstr o (fieldA w) (fieldB w)) = w := by
  obtain ⟨hop, hrsv, hunused⟩ := h
  obtain ⟨ha, hb⟩ := (unusedOperandSet_eq_false_iff _ _ _).mp hunused
  obtain ⟨eop, ersv, eb, ea⟩ := encode_fields (buildInstr o (fieldA w) (fieldB w))
  rw [word_eq_iff_fields, eop, ersv, eb, ea, buildInstr_opcode]
  exact ⟨(opcodeOf_eq_some_iff.mp hop).symm, hrsv.symm, buildInstr_operandB _ hb, buildInstr_operandA _ ha⟩

/-- Settles O3: a legal word has zeros in every field its command does not carry, as the encoder writes them. -/
theorem encodeOfDecodeIsTheWord : Obligations.EncodeOfDecodeIsTheWord := by
  intro w i h
  obtain ⟨hlegal, hbuild⟩ := decodeWord_eq_ok_iff.mp h
  have hw := encode_buildInstr_of_legalFor hlegal
  rwa [hbuild] at hw

/-! ### Bytes -/

/-- The `n` bytes of a word from byte `k` on make the `8n` bits from bit `8k` on (R79). -/
theorem wordOfBytes_range' (w : Word64) (n : Nat) :
    ∀ k, wordOfBytes ((List.range' k n).map fun j => w.extractLsb' (8 * j) 8) =
      w.toNat / 2 ^ (8 * k) % 2 ^ (8 * n) := by
  induction n with
  | zero => intro k; simp [wordOfBytes, Nat.mod_one]
  | succ n ih =>
    intro k
    have hlow : (w.extractLsb' (8 * k) 8).toNat = w.toNat / 2 ^ (8 * k) % 256 := by
      rw [BitVec.extractLsb'_toNat, Nat.shiftRight_eq_div_pow]
    have hhigh : w.toNat / 2 ^ (8 * (k + 1)) = w.toNat / 2 ^ (8 * k) / 256 := by
      rw [Nat.div_div_eq_div_mul, Nat.mul_succ, Nat.pow_add]
    rw [List.range'_succ, List.map_cons, wordOfBytes, ih, hlow, hhigh, Nat.mul_succ, Nat.pow_add,
      Nat.mul_comm (2 ^ _), Nat.mod_mul]

theorem wordOfBytes_bytesOfWord (w : Word64) : wordOfBytes (bytesOfWord w) = w.toNat := by
  rw [bytesOfWord, List.range_eq_range', wordOfBytes_range', Nat.mul_zero, Nat.pow_zero, Nat.div_one]
  exact Nat.mod_eq_of_lt w.isLt

/-- Settles O6: the eight bytes make the word again, and byte `k` is by definition its bits from `8k` on. -/
theorem bytesCarryTheWordLittleEndian : Obligations.BytesCarryTheWordLittleEndian := by
  intro w
  refine ⟨?_, fun k hk => by simp [bytesOfWord, hk]⟩
  have hlength : (bytesOfWord w).length = 8 := by simp [bytesOfWord]
  rw [decodeBytes, if_pos hlength, wordOfBytes_bytesOfWord, BitVec.ofNat_toNat, BitVec.setWidth_eq]

/-! ### The assembler -/

theorem assembleFields_of_fits (o : Opcode) {a b : Nat} (ha : a < 2 ^ 32) (hb : b < 2 ^ 16) :
    assembleFields o a b = .ok (encode (buildInstr o (BitVec.ofNat 32 a) (BitVec.ofNat 16 b))) :=
  if_neg (by omega)

theorem assembleFields_of_wide (o : Opcode) {a b : Nat} (h : 2 ^ 32 ≤ a ∨ 2 ^ 16 ≤ b) :
    assembleFields o a b = .error .operandTooWide :=
  if_pos h

/-- The commands whose one operand is field `A` (R102, R116). -/
theorem assembleCommand_one {o : Opcode}
    (ho : o ∈ [Opcode.translate, .decode, .tlbLookup, .tlbRead, .ptLookup, .statsRead]) (a : Nat) :
    assembleCommand o [a] = assembleFields o a 0 := by
  simp only [List.mem_cons, List.not_mem_nil, or_false] at ho
  rcases ho with rfl | rfl | rfl | rfl | rfl | rfl <;> rfl

/-- The commands written with field `A` first (R116). -/
theorem assembleCommand_page_frame {o : Opcode} (ho : o ∈ [Opcode.tlbInsert, .ptInsert]) (a b : Nat) :
    assembleCommand o [a, b] = assembleFields o a b := by
  simp only [List.mem_cons, List.not_mem_nil, or_false] at ho
  rcases ho with rfl | rfl <;> rfl

/-- The commands written with field `B` first (R116). -/
theorem assembleCommand_frame_first {o : Opcode} (ho : o ∈ [Opcode.frameLoad, .frameRead]) (a b : Nat) :
    assembleCommand o [b, a] = assembleFields o a b := by
  simp only [List.mem_cons, List.not_mem_nil, or_false] at ho
  rcases ho with rfl | rfl <;> rfl

/-- Settles O7: every command hands its operands to `assembleFields`, which encodes those that fit. -/
theorem assemblerPlacesOperandsInTheirFields : Obligations.AssemblerPlacesOperandsInTheirFields := by
  refine fun a b => ⟨fun ha => ?one, fun ha hb => ?two, rfl, fun hwide o ho => ?oneWide,
    fun hwide => ⟨fun o ho => ?pageFrameWide, fun o ho => ?frameFirstWide⟩⟩
  case one =>
    have hfits := fun o => assembleFields_of_fits o ha (b := 0) (by decide)
    exact ⟨hfits .translate, hfits .decode, hfits .tlbLookup, hfits .tlbRead, hfits .ptLookup, hfits .statsRead⟩
  case two =>
    have hfits := fun o => assembleFields_of_fits o ha hb
    exact ⟨hfits .tlbInsert, hfits .ptInsert, hfits .frameLoad, hfits .frameRead⟩
  case oneWide => exact (assembleCommand_one ho a).trans (assembleFields_of_wide o (.inl hwide))
  case pageFrameWide => exact (assembleCommand_page_frame ho a b).trans (assembleFields_of_wide o hwide)
  case frameFirstWide => exact (assembleCommand_frame_first ho a b).trans (assembleFields_of_wide o hwide)

end Sys2Proof.Machine
end

section
/-! One page written into the frame store (20_memory.md R73): what is read inside its frame, and that every other
byte and every other part of the state stays; and what is read where nothing was written (10_state.md R44). -/
namespace Sys2Proof.Machine
open Sys2Proof

/-- A read depends on the stored cells, the draw in force and the configuration only (10_state.md R44). -/
theorem memRead_congr {s t : State} (hcfg : t.cfg = s.cfg) (hframe : t.frame = s.frame) (hdraw : t.draw = s.draw)
    (pa : Nat) : memRead t pa = memRead s pa := by
  simp only [memRead, hcfg, hframe, hdraw]

theorem physAddr_zero_add_pageSize (c : Config) (f : FrameNo) :
    physAddr c f 0 + c.pageSize = (f.toNat + 1) * c.pageSize := by
  rw [physAddr, Nat.add_zero, Nat.succ_mul]

section
variable {s : State} {f : FrameNo} {bytes : List Byte}

theorem get?_frameWrite_inside (hlen : bytes.length = s.cfg.pageSize) {o : Nat} (ho : o < s.cfg.pageSize) :
    Memory.get? (frameWrite s f bytes).frame (physAddr s.cfg f o) = bytes[o]? := by
  have hinside : physAddr s.cfg f 0 ≤ physAddr s.cfg f o ∧
      physAddr s.cfg f o < physAddr s.cfg f 0 + bytes.length := by
    simp only [physAddr]
    omega
  have hoffset : physAddr s.cfg f o - physAddr s.cfg f 0 = o := Nat.add_sub_cancel_left ..
  rw [frameWrite_frame, Memory.get?_writeBlock, if_pos hinside, hoffset]

theorem get?_frameWrite_outside (hlen : bytes.length = s.cfg.pageSize) {pa : Nat}
    (hpa : pa < f.toNat * s.cfg.pageSize ∨ (f.toNat + 1) * s.cfg.pageSize ≤ pa) :
    Memory.get? (frameWrite s f bytes).frame pa = Memory.get? s.frame pa := by
  have houtside : ¬ (physAddr s.cfg f 0 ≤ pa ∧ pa < physAddr s.cfg f 0 + bytes.length) := by
    rw [hlen, physAddr_zero_add_pageSize]
    simp only [physAddr]
    omega
  rw [frameWrite_frame, Memory.get?_writeBlock, if_neg houtside]

theorem memRead_of_get? {t : State} {pa : Nat} {b : Byte} (h : Memory.get? t.frame pa = some b) :
    memRead t pa = b := by
  rw [memRead, h, Option.getD_some]

theorem memRead_frameWrite_inside (hlen : bytes.length = s.cfg.pageSize) {o : Nat} (ho : o < s.cfg.pageSize) :
    some (memRead (frameWrite s f bytes) (physAddr s.cfg f o)) = bytes[o]? := by
  obtain ⟨b, hb⟩ : ∃ b, bytes[o]? = some b := ⟨_, List.getElem?_eq_getElem (hlen ▸ ho)⟩
  rw [memRead_of_get? ((get?_frameWrite_inside hlen ho).trans hb), hb]

theorem memRead_frameWrite_outside (hlen : bytes.length = s.cfg.pageSize) {pa : Nat}
    (hpa : pa < f.toNat * s.cfg.pageSize ∨ (f.toNat + 1) * s.cfg.pageSize ≤ pa) :
    memRead (frameWrite s f bytes) pa = memRead s pa := by
  rw [memRead, get?_frameWrite_outside hlen hpa]
  rfl

end

/-! ### Bytes never written -/

theorem Memory.get?_eq_none {m : Memory} {x : Nat} (h : ∀ b, (x, b) ∉ m) : Memory.get? m x = none := by
  induction m with
  | nil => rfl
  | cons c m ih =>
    obtain ⟨a, b⟩ := c
    have hne : a ≠ x := by
      rintro rfl
      exact h b List.mem_cons_self
    rw [Memory.get?, if_neg hne]
    exact ih fun b hb => h b (List.mem_cons_of_mem _ hb)

/-- Frame and offset are recovered from the physical address, so its draw of `FRAME_INIT` is that of R44. -/
theorem memRead_of_unwritten {s : State} {f : FrameNo} {o : Nat} (ho : o < s.cfg.pageSize)
    (h : ∀ b, (physAddr s.cfg f o, b) ∉ s.frame) :
    memRead s (physAddr s.cfg f o) = Config.frameInit s.draw f.toNat o := by
  have hdiv : physAddr s.cfg f o / s.cfg.pageSize = f.toNat := by
    rw [physAddr, Nat.add_comm, Nat.add_mul_div_right _ _ (pageSize_pos _), Nat.div_eq_of_lt ho, Nat.zero_add]
  have hmod : physAddr s.cfg f o % s.cfg.pageSize = o := by
    rw [physAddr, Nat.mul_add_mod_self_right, Nat.mod_eq_of_lt ho]
  rw [memRead, Memory.get?_eq_none h, Option.getD_none, hdiv, hmod]

/-- Settles O28: the block written is the frame's, and a write replaces the frame store only. -/
theorem frameWriteSetsExactlyItsFrame : Obligations.FrameWriteSetsExactlyItsFrame :=
  fun _ _ _ _ hlen => ⟨fun _ hi => memRead_frameWrite_inside hlen hi,
    fun _ hpa => memRead_frameWrite_outside hlen hpa, rfl⟩

end Sys2Proof.Machine
end

section
/-! What a command leaves alone. `Effect` lists every change a command can make before its response is given, so that
a claim about all commands is a claim about these updates. -/
namespace Sys2Proof.Machine
open Sys2Proof

/-- `Effect s i u`: the changes command `i` can make, from `s` to `u`, its response aside. -/
inductive Effect (s : State) : Instr → State → Prop where
  /-- An error, a command that only reads, or a command of another effect that was raised. -/
  | unchanged (i : Instr) : Effect s i s
  | tlbInserted {page : OperandA} {f : FrameNo} (hpage : page.toNat < s.cfg.numPages)
      (hf : f.toNat < s.cfg.frameLimit) :
      Effect s (.tlbInsert page f) { s with tlb := (tlbInsert s.cfg.tlbCap s.tlb page.toNat f).tlb }
  | ptInserted {page : OperandA} {f : FrameNo} (hpage : page.toNat < s.cfg.numPages)
      (hf : f.toNat < s.cfg.frameLimit) :
      Effect s (.ptInsert page f) { s with pt := ptSet s.pt page.toNat f }
  | allocated : Effect s .frameAlloc (frameAlloc s).st
  | loaded {page : OperandA} {f : FrameNo} (hpage : page.toNat < s.cfg.numPages)
      (hf : f.toNat < s.cfg.frameLimit) (hstore : (page.toNat + 1) * s.cfg.pageSize ≤ s.cfg.storeLen) :
      Effect s (.frameLoad f page) (frameWrite s f (storePage s.cfg page.toNat))
  /-- TRANSLATE by R241. -/
  | hit {la : OperandA} {f : FrameNo} (htlb : tlbLookup s.tlb (decompose s.cfg la).1 = some f) :
      Effect s (.translate la) (countLookup s true false)
  /-- TRANSLATE by R242. -/
  | refilled {la : OperandA} {f : FrameNo} (htlb : tlbLookup s.tlb (decompose s.cfg la).1 = none)
      (hpt : ptLookup s.pt (decompose s.cfg la).1 = some f) :
      Effect s (.translate la) (countLookup
        { s with tlb := (tlbInsert s.cfg.tlbCap s.tlb (decompose s.cfg la).1 f).tlb } false false)
  /-- TRANSLATE by R243. -/
  | faulted {la : OperandA} (htlb : tlbLookup s.tlb (decompose s.cfg la).1 = none)
      (hpt : ptLookup s.pt (decompose s.cfg la).1 = none)
      (hstore : ((decompose s.cfg la).1 + 1) * s.cfg.pageSize ≤ s.cfg.storeLen) :
      Effect s (.translate la) (countLookup (faultState s (decompose s.cfg la).1) false true)

theorem exec_translate_effect {la : OperandA} {s t : State} (h : exec (.translate la) s = .next t) :
    ∃ u w, Effect s (.translate la) u ∧ t = answer u w := by
  rcases exec_translate_cases la s with ⟨r, hr, -, -, he⟩ | ⟨-, -, -, he⟩ | ⟨-, he⟩ <;> rw [he] at h <;> cases h
  · rcases resolve_cases s (decompose s.cfg la).1 with
      ⟨f, htlb, hr'⟩ | ⟨f, htlb, hpt, hr'⟩ | ⟨htlb, hpt, hstore, hr'⟩ | ⟨-, -, -, hr'⟩ <;> cases hr.symm.trans hr'
    · exact ⟨_, _, .hit htlb, rfl⟩
    · exact ⟨_, _, .refilled htlb hpt, rfl⟩
    · exact ⟨_, _, .faulted htlb hpt hstore, rfl⟩
  · exact ⟨s, _, .unchanged _, rfl⟩
  · exact ⟨s, _, .unchanged _, rfl⟩

/-- Every command has one of these effects and then gives its response. -/
theorem exec_effect {i : Instr} {s t : State} (h : exec i s = .next t) : ∃ u w, Effect s i u ∧ t = answer u w := by
  cases i with
  | translate la => exact exec_translate_effect h
  | decode la => cases h; exact ⟨s, _, .unchanged _, rfl⟩
  | frameAlloc => cases h; exact ⟨_, _, .allocated, rfl⟩
  | tlbLookup page =>
    rcases exec_tlbLookup_cases page s with ⟨-, f, -, he⟩ | ⟨-, -, he⟩ | ⟨-, he⟩ <;> cases he.symm.trans h <;>
      exact ⟨s, _, .unchanged _, rfl⟩
  | tlbInsert page f =>
    rcases exec_tlbInsert_cases page f s with ⟨hp, hf, he⟩ | ⟨-, he⟩ <;> cases he.symm.trans h
    · exact ⟨_, _, .tlbInserted hp hf, rfl⟩
    · exact ⟨s, _, .unchanged _, rfl⟩
  | tlbRead index =>
    rcases exec_tlbRead_cases index s with ⟨-, e, -, he⟩ | ⟨-, -, he⟩ | ⟨-, he⟩ <;> cases he.symm.trans h <;>
      exact ⟨s, _, .unchanged _, rfl⟩
  | ptLookup page =>
    rcases exec_ptLookup_cases page s with ⟨-, f, -, he⟩ | ⟨-, -, he⟩ | ⟨-, he⟩ <;> cases he.symm.trans h <;>
      exact ⟨s, _, .unchanged _, rfl⟩
  | ptInsert page f =>
    rcases exec_ptInsert_cases page f s with ⟨hp, hf, he⟩ | ⟨-, he⟩ <;> cases he.symm.trans h
    · exact ⟨_, _, .ptInserted hp hf, rfl⟩
    · exact ⟨s, _, .unchanged _, rfl⟩
  | frameLoad f page =>
    rcases exec_frameLoad_cases f page s with ⟨hp, hf, hstore, he⟩ | ⟨-, -, -, he⟩ | ⟨-, he⟩ <;>
      cases he.symm.trans h
    · exact ⟨_, _, .loaded hp hf hstore, rfl⟩
    · exact ⟨s, _, .unchanged _, rfl⟩
    · exact ⟨s, _, .unchanged _, rfl⟩
  | frameRead f offset =>
    rcases exec_frameRead_cases f offset s with ⟨-, -, he⟩ | ⟨-, he⟩ <;> cases he.symm.trans h <;>
      exact ⟨s, _, .unchanged _, rfl⟩
  | statsRead sel =>
    rcases exec_statsRead_cases sel s with ⟨-, he⟩ | ⟨-, he⟩ <;> cases he.symm.trans h <;>
      exact ⟨s, _, .unchanged _, rfl⟩

/-! ### The parameters -/

section
variable {s u : State} {i : Instr}

theorem Effect.cfg_eq (h : Effect s i u) : u.cfg = s.cfg := by cases h <;> simp

theorem Effect.inputs_eq (h : Effect s i u) : u.inputs = s.inputs := by cases h <;> simp

theorem Effect.draw_eq (h : Effect s i u) : u.draw = s.draw := by cases h <;> simp

end

/-- Settles O40: no effect writes the configuration, which holds the store, or the inputs. -/
theorem commandsKeepTheParameters : Obligations.CommandsKeepTheParameters := by
  intro i s t h
  obtain ⟨u, w, heffect, rfl⟩ := exec_effect h
  exact ⟨heffect.cfg_eq, congrArg Config.store heffect.cfg_eq, heffect.inputs_eq⟩

/-! ### The fields each command writes -/

theorem frameAlloc_st_eq (s : State) :
    (frameAlloc s).st = { s with tlb := (frameAlloc s).st.tlb, pt := (frameAlloc s).st.pt,
                                 freeNext := (frameAlloc s).st.freeNext, victim := (frameAlloc s).st.victim } := by
  rcases frameAlloc_cases s with ⟨-, h⟩ | ⟨-, h⟩ <;> simp only [h, frameShootdown]

/-- Settles O42: the effects of each command, read off their definitions. -/
theorem commandsWriteOnlyTheirState : Obligations.CommandsWriteOnlyTheirState := by
  refine fun s t => ⟨fun la h => ?translate, fun p f h => ?tlbInsert, fun p f h => ?ptInsert, fun h => ?frameAlloc,
    fun f p h => ?frameLoad, fun i hkeeps hclass h => ?reading⟩ <;>
    obtain ⟨u, w, heffect, rfl⟩ := exec_effect h
  case translate =>
    have hdraw := heffect.draw_eq
    have hcfg := heffect.cfg_eq
    have hinputs := heffect.inputs_eq
    simp [answer, ← hdraw, ← hcfg, ← hinputs]
  case tlbInsert => cases heffect <;> rfl
  case ptInsert => cases heffect <;> rfl
  case frameAlloc =>
    cases heffect with
    | unchanged => rfl
    | allocated => exact congrArg (answer · w) (frameAlloc_st_eq s)
  case frameLoad => cases heffect <;> rfl
  case reading =>
    cases heffect with
    | unchanged => rfl
    | tlbInserted | ptInserted | allocated | loaded => cases hkeeps
    | hit | refilled | faulted => exact absurd rfl hclass

/-! ### The bytes of the frame store -/

/-- The page-fault path writes memory as a load of the page into its frame does (44_translate.md R243). -/
theorem memRead_faultState (s : State) (p pa : Nat) :
    memRead (faultState s p) pa = memRead (frameWrite s (frameAlloc s).frame (storePage s.cfg p)) pa :=
  memRead_congr (by simp) (by simp) (by simp) pa

theorem memRead_countLookup (s : State) (hit fault : Bool) (pa : Nat) :
    memRead (countLookup s hit fault) pa = memRead s pa := rfl

theorem memRead_answer (s : State) (w : Word64) (pa : Nat) : memRead (answer s w) pa = memRead s pa := rfl

/-- A TRANSLATE without a page fault stores nothing, and one with it stores into the allocated frame. -/
theorem Effect.memRead_translate {s u : State} {la : OperandA} (h : Effect s (.translate la) u) {pa : Nat}
    (hpa : (tlbLookup s.tlb (decompose s.cfg la).1).isSome ∨ (ptLookup s.pt (decompose s.cfg la).1).isSome ∨
      pa < (frameAlloc s).frame.toNat * s.cfg.pageSize ∨
      ((frameAlloc s).frame.toNat + 1) * s.cfg.pageSize ≤ pa) : memRead u pa = memRead s pa := by
  cases h with
  | unchanged | hit | refilled => rfl
  | faulted htlb hpt hstore =>
    simp only [htlb, hpt, Option.isSome_none, Bool.false_eq_true, false_or] at hpa
    rw [memRead_countLookup, memRead_faultState, memRead_frameWrite_outside (storePage_length hstore) hpa]

/-- Settles O44: the two effects that write the frame store write one page into one frame. -/
theorem onlyLoadsAndFaultsStoreBytes : Obligations.OnlyLoadsAndFaultsStoreBytes := by
  intro i s t h
  obtain ⟨u, w, heffect, rfl⟩ := exec_effect h
  refine ⟨?load, ?translate, fun hload htranslate pa => ?other⟩
  case load =>
    rintro f page rfl pa hpa
    cases heffect with
    | unchanged => rfl
    | loaded _ _ hstore => exact memRead_frameWrite_outside (storePage_length hstore) hpa
  case translate =>
    rintro la rfl
    exact ⟨fun pa hpa => heffect.memRead_translate (.inr (.inr hpa)),
      fun hhit pa => heffect.memRead_translate (hhit.imp_right .inl)⟩
  case other =>
    cases heffect with
    | unchanged | tlbInserted | ptInserted => rfl
    | allocated => exact memRead_congr (by simp) (by simp) (by simp) pa
    | loaded => exact absurd rfl (hload _ _)
    | hit | refilled | faulted => exact absurd rfl (htranslate _)

end Sys2Proof.Machine
end

section
/-! Legal states (10_state.md): every update keeps every range and canonical form, so every step does; and the state
after reset is legal and coherent (44_translate.md R250). -/
namespace Sys2Proof.Machine
open Sys2Proof

/-! ### The end of the page-fault path -/

/-- A page loaded into a frame, mapped and cached: what R243 does once the frame is allocated. -/
def fillFrame (s : State) (f : FrameNo) (p : Nat) : State :=
  { frameWrite s f (storePage s.cfg p) with
    pt := ptSet s.pt p f
    tlb := (tlbInsert s.cfg.tlbCap s.tlb p f).tlb }

theorem faultState_eq_fillFrame (s : State) (p : Nat) :
    faultState s p = fillFrame (frameAlloc s).st (frameAlloc s).frame p := by
  simp only [faultState, fillFrame, frameAlloc_cfg]

/-! ### Each update keeps a state legal -/

namespace State.Legal
variable {s : State}

theorem answer (hs : s.Legal) (w : Word64) : (answer s w).Legal := { hs with }

theorem withInputs (hs : s.Legal) (ins : List HostInput) : ({ s with inputs := ins } : State).Legal := { hs with }

theorem countLookup (hs : s.Legal) (hit fault : Bool) : (countLookup s hit fault).Legal :=
  { hs with
    hits_range := sat_le _ _
    faults_range := sat_le _ _
    lookups_range := sat_le _ _ }

theorem one_le_tlbCap (hs : s.Legal) : 1 ≤ s.cfg.tlbCap := by
  obtain ⟨-, -, -, hcap, -⟩ := hs.config
  exact hcap

theorem tlbInsert (hs : s.Legal) {p : Nat} {f : FrameNo} (hp : p < s.cfg.numPages)
    (hf : f.toNat < s.cfg.frameLimit) :
    ({ s with tlb := (tlbInsert s.cfg.tlbCap s.tlb p f).tlb } : State).Legal :=
  { hs with
    tlb_pages := fun e he => by
      rcases tlbInsert_mem he with h | rfl
      · exact hs.tlb_pages e h
      · exact hp
    tlb_frames := fun e he => by
      rcases tlbInsert_mem he with h | rfl
      · exact hs.tlb_frames e h
      · exact hf
    tlb_length := tlbInsert_length hs.one_le_tlbCap hs.tlb_length p f
    tlb_unique := tlbInsert_unique hs.tlb_unique p f }

theorem ptSet (hs : s.Legal) {p : Nat} {f : FrameNo} (hp : p < s.cfg.numPages)
    (hf : f.toNat < s.cfg.frameLimit) : ({ s with pt := ptSet s.pt p f } : State).Legal :=
  { hs with
    pt_rising := ptSet_rising hs.pt_rising p f
    pt_pages := fun e he => by
      rcases mem_ptSet he with rfl | h
      · exact hp
      · exact hs.pt_pages e h
    pt_frames := fun e he => by
      rcases mem_ptSet he with rfl | h
      · exact hf
      · exact hs.pt_frames e h }

theorem frameWrite (hs : s.Legal) {f : FrameNo} {bytes : List Byte} (hf : f.toNat < s.cfg.frameLimit)
    (hlen : bytes.length = s.cfg.pageSize) : (frameWrite s f bytes).Legal :=
  { hs with
    frame_wf := frameWrite_keeps_memory_wf hs.frame_wf f bytes
    frame_range := fun c hc => by
      rcases Memory.mem_writeBlock hc with h | ⟨-, h⟩
      · exact hs.frame_range c h
      · rw [hlen, physAddr_zero_add_pageSize] at h
        exact h.trans_le (Nat.mul_le_mul_right _ hf) }

theorem frameShootdown (hs : s.Legal) (f : FrameNo) : (frameShootdown s f).Legal :=
  { hs with
    tlb_pages := fun e he => hs.tlb_pages e (mem_tlbInvalidateFrame.mp he).left
    tlb_frames := fun e he => hs.tlb_frames e (mem_tlbInvalidateFrame.mp he).left
    tlb_length := (tlbInvalidateFrame_length s.tlb f).trans hs.tlb_length
    tlb_unique := tlbInvalidateFrame_unique hs.tlb_unique f
    pt_rising := ptInvalidateFrame_rising hs.pt_rising f
    pt_pages := fun e he => hs.pt_pages e (mem_ptInvalidateFrame.mp he).left
    pt_frames := fun e he => hs.pt_frames e (mem_ptInvalidateFrame.mp he).left }

/-- A legal state is on one of the allocator's two paths, (R201, R203). -/
theorem free_or_exhausted (hs : s.Legal) :
    s.freeNext.toNat < s.cfg.frameLimit ∨ s.freeNext.toNat = s.cfg.frameLimit :=
  hs.freeNext_range.lt_or_eq

theorem frameAlloc_frame_lt (hs : s.Legal) : (frameAlloc s).frame.toNat < s.cfg.frameLimit := by
  rcases hs.free_or_exhausted with hfree | hfull
  · rw [frameAlloc_of_free hfree]
    exact hfree
  · rw [frameAlloc_of_exhausted hfull]
    exact hs.victim_range

theorem frameAlloc (hs : s.Legal) : (frameAlloc s).st.Legal := by
  rcases hs.free_or_exhausted with hfree | hfull
  · have hnext := frameAlloc_freeNext_of_free hs hfree
    rw [frameAlloc_of_free hfree] at hnext ⊢
    exact { hs with
      freeNext_range := hnext.trans_le hfree
      victim_zero := fun _ => hs.victim_zero hfree }
  · have hvictim := frameAlloc_victim_of_exhausted hs hfull
    rw [frameAlloc_of_exhausted hfull] at hvictim ⊢
    have hadvanced : ({ s with victim := BitVec.ofNat 16 ((s.victim.toNat + 1) % s.cfg.frameLimit) } : State).Legal :=
      { hs with
        victim_range := hvictim.trans_lt (Nat.mod_lt _ (Nat.zero_lt_of_lt hs.victim_range))
        victim_zero := fun hlt => absurd hfull hlt.ne }
    exact hadvanced.frameShootdown s.victim

theorem fillFrame (hs : s.Legal) {p : Nat} {f : FrameNo} (hp : p < s.cfg.numPages)
    (hf : f.toNat < s.cfg.frameLimit) (hstore : (p + 1) * s.cfg.pageSize ≤ s.cfg.storeLen) :
    (fillFrame s f p).Legal :=
  ((hs.frameWrite hf (storePage_length hstore)).ptSet hp hf).tlbInsert hp hf

theorem faultState (hs : s.Legal) {p : Nat} (hp : p < s.cfg.numPages)
    (hstore : (p + 1) * s.cfg.pageSize ≤ s.cfg.storeLen) : (faultState s p).Legal := by
  have hf := hs.frameAlloc_frame_lt
  rw [faultState_eq_fillFrame]
  rw [← frameAlloc_cfg s] at hp hf hstore
  exact hs.frameAlloc.fillFrame hp hf hstore

/-- Every effect of every command keeps a legal state legal. -/
theorem effect (hs : s.Legal) {i : Instr} {u : State} (h : Effect s i u) : u.Legal := by
  cases h with
  | unchanged => exact hs
  | tlbInserted hpage hf => exact hs.tlbInsert hpage hf
  | ptInserted hpage hf => exact hs.ptSet hpage hf
  | allocated => exact hs.frameAlloc
  | loaded _ hf hstore => exact hs.frameWrite hf (storePage_length hstore)
  | hit => exact hs.countLookup true false
  | refilled _ hpt =>
    exact (hs.tlbInsert (decompose_page_lt _ _) (hs.pt_frames _ (ptLookup_mem hpt))).countLookup false false
  | faulted _ _ hstore => exact (hs.faultState (decompose_page_lt _ _) hstore).countLookup false true

theorem exec (hs : s.Legal) {i : Instr} {t : State} (h : exec i s = .next t) : t.Legal := by
  obtain ⟨u, w, heffect, rfl⟩ := exec_effect h
  exact (hs.effect heffect).answer w

end State.Legal

/-! ### Reset -/

theorem legal_boot {c : Config} (hc : c.WellFormed) : (State.boot c).Legal := by
  have hlimit : 0 < c.frameLimit := by
    obtain ⟨-, -, -, -, hlimit, -⟩ := hc
    exact hlimit
  constructor
  case config => exact hc
  all_goals simp [hlimit, Memory.wf]

theorem coherent_boot (c : Config) : Coherent (State.boot c) := by
  constructor <;> simp

theorem countersAgree_boot (c : Config) : CountersAgree (State.boot c) := by
  simp [CountersAgree]

/-- Settles O53: everything is empty or zero. -/
theorem resetIsLegalAndCoherent : Obligations.ResetIsLegalAndCoherent := by
  have hboot : ∀ c : Config, c.WellFormed →
      (State.boot c).Legal ∧ Coherent (State.boot c) ∧ CountersAgree (State.boot c) :=
    fun c hc => ⟨legal_boot hc, coherent_boot c, countersAgree_boot c⟩
  exact ⟨hboot, hboot Config.defaults (by decide)⟩

theorem legal_applyReset {s : State} (hc : s.cfg.WellFormed) : (applyReset s).Legal :=
  { legal_boot hc with }

/-! ### The step -/

/-- Settles O54: a step is a command's effect and a response, or a reset, or it holds the state. -/
theorem stepKeepsStatesLegal : Obligations.StepKeepsStatesLegal := by
  intro s t hs hstep
  obtain ⟨hc, ⟨-, rfl⟩ | ⟨w, rest, i, -, -, hexec⟩ | ⟨w, rest, r, -, -, rfl⟩ | ⟨rest, -, rfl⟩⟩ := step_cases hstep
  · exact hs
  · exact (hs.withInputs rest).exec hexec
  · exact (hs.withInputs rest).answer _
  · exact legal_applyReset hc

end Sys2Proof.Machine
end

section
/-! The invariants I1 to I5 of 44_translate.md R250. A page fault breaks them between the allocation of its frame, when
no page maps the frame, and the end of the fault: `CoherentExcept` is what holds in between. -/
namespace Sys2Proof.Machine
open Sys2Proof

/-- I1 to I3 with the frame `f` left out: it is allocated and no page maps it. -/
structure CoherentExcept (s : State) (f : FrameNo) : Prop where
  tlb_agrees : ∀ e ∈ s.tlb, ptLookup s.pt e.page = some e.frame
  frame_allocated : f.toNat < s.freeNext.toNat
  frame_unmapped : ∀ e ∈ s.pt, e.2 ≠ f
  frames_allocated : ∀ e ∈ s.pt, e.2.toNat < s.freeNext.toNat
  frames_distinct : (s.pt.map Prod.snd).Nodup
  frames_mapped : ∀ g < s.freeNext.toNat, g ≠ f.toNat → ∃ e ∈ s.pt, e.2.toNat = g
  frames_hold : ∀ e ∈ s.pt, frameHoldsPage s e.2 e.1

/-! ### The allocation -/

section
variable {s : State}

theorem Coherent.frameAlloc_of_free (hs : Coherent s) (hlegal : s.Legal)
    (hfree : s.freeNext.toNat < s.cfg.frameLimit) :
    CoherentExcept { s with freeNext := s.freeNext + 1 } s.freeNext := by
  have hnext : (s.freeNext + 1).toNat = s.freeNext.toNat + 1 := by
    simpa only [Machine.frameAlloc_of_free hfree] using frameAlloc_freeNext_of_free hlegal hfree
  exact {
    tlb_agrees := hs.tlb_agrees
    frame_allocated := hnext ▸ Nat.lt_succ_self _
    frame_unmapped := fun e he heq => (heq ▸ hs.frames_allocated e he).false
    frames_allocated := fun e he => hnext ▸ Nat.lt_succ_of_lt (hs.frames_allocated e he)
    frames_distinct := hs.frames_distinct
    frames_mapped := fun g hg hne =>
      hs.frames_mapped g (lt_of_le_of_ne (Nat.le_of_lt_succ (hg.trans_eq hnext)) hne)
    frames_hold := hs.frames_hold }

/-- The shootdown takes the translations to `VICTIM` and no other (R204). -/
theorem Coherent.frameAlloc_of_exhausted (hs : Coherent s) (hlegal : s.Legal)
    (hfull : s.freeNext.toNat = s.cfg.frameLimit) (v : BitVec 16) :
    CoherentExcept (frameShootdown { s with victim := v } s.victim) s.victim where
  tlb_agrees e he := by
    obtain ⟨he, hne⟩ := mem_tlbInvalidateFrame.mp he
    exact ptLookup_ptInvalidateFrame_of_ne (hs.tlb_agrees e he) hne.symm
  frame_allocated := hfull ▸ hlegal.victim_range
  frame_unmapped e he := (mem_ptInvalidateFrame.mp he).right
  frames_allocated e he := hs.frames_allocated e (mem_ptInvalidateFrame.mp he).left
  frames_distinct := hs.frames_distinct.sublist (List.filter_sublist.map _)
  frames_mapped g hg hne := by
    obtain ⟨e, he, rfl⟩ := hs.frames_mapped g hg
    exact ⟨e, mem_ptInvalidateFrame.mpr ⟨he, fun h => hne (congrArg _ h)⟩, rfl⟩
  frames_hold e he := hs.frames_hold e (mem_ptInvalidateFrame.mp he).left

theorem Coherent.frameAlloc (hs : Coherent s) (hlegal : s.Legal) :
    CoherentExcept (frameAlloc s).st (frameAlloc s).frame := by
  rcases hlegal.free_or_exhausted with hfree | hfull
  · rw [Machine.frameAlloc_of_free hfree]
    exact hs.frameAlloc_of_free hlegal hfree
  · rw [Machine.frameAlloc_of_exhausted hfull]
    exact hs.frameAlloc_of_exhausted hlegal hfull _

/-! ### Filling the frame -/

/-- The bytes of another frame lie outside the frame's. -/
theorem physAddr_outside {c : Config} {f g : FrameNo} (hne : g ≠ f) {o : Nat} (ho : o < c.pageSize) :
    physAddr c g o < f.toNat * c.pageSize ∨ (f.toNat + 1) * c.pageSize ≤ physAddr c g o := by
  have hne' : g.toNat ≠ f.toNat := fun h => hne (BitVec.eq_of_toNat_eq h)
  rcases hne'.lt_or_gt with hlt | hgt
  · refine .inl (Nat.lt_of_lt_of_le ?_ (Nat.mul_le_mul_right c.pageSize hlt))
    rw [physAddr, Nat.succ_mul]
    omega
  · exact .inr ((Nat.mul_le_mul_right c.pageSize hgt).trans (Nat.le_add_right _ o))

theorem frameHoldsPage_frameWrite_same (f : FrameNo) {p : Nat} (hstore : (p + 1) * s.cfg.pageSize ≤ s.cfg.storeLen) :
    frameHoldsPage (frameWrite s f (storePage s.cfg p)) f p := by
  intro o ho
  obtain ⟨b, hb⟩ := Option.isSome_iff_exists.mp (storePage_getElem?_isSome hstore ho)
  refine ⟨b, (storePage_getElem? ho).symm.trans hb, ?_⟩
  exact (get?_frameWrite_inside (storePage_length hstore) ho).trans hb

theorem frameHoldsPage_frameWrite_other {f g : FrameNo} {bytes : List Byte} {p : Nat}
    (hlen : bytes.length = s.cfg.pageSize) (hne : g ≠ f) (h : frameHoldsPage s g p) :
    frameHoldsPage (frameWrite s f bytes) g p := by
  intro o ho
  obtain ⟨b, hb, hget⟩ := h o ho
  exact ⟨b, hb, (get?_frameWrite_outside hlen (physAddr_outside hne ho)).trans hget⟩

/-- A page that was not resident, loaded into the frame left out, mapped and cached, restores the invariants. -/
theorem CoherentExcept.fillFrame {f : FrameNo} (hs : CoherentExcept s f) {p : Nat} (hlegal : (fillFrame s f p).Legal)
    (hp : ptLookup s.pt p = none) (hstore : (p + 1) * s.cfg.pageSize ≤ s.cfg.storeLen) :
    Coherent (fillFrame s f p) := by
  have hperm := ptSet_perm hp f
  exact {
    tlb_agrees := fun e he => by
      show ptLookup (ptSet s.pt p f) e.page = some e.frame
      rw [ptLookup_ptSet]
      rcases tlbInsert_mem he with hold | rfl
      · have hmapped := hs.tlb_agrees e hold
        have hne : e.page ≠ p := fun h => by rw [h, hp] at hmapped; cases hmapped
        rw [if_neg hne, hmapped]
      · exact if_pos rfl
    frames_allocated := fun e he => by
      rcases mem_ptSet he with rfl | hold
      · exact hs.frame_allocated
      · exact hs.frames_allocated e hold
    frames_distinct := by
      refine (hperm.map Prod.snd).nodup_iff.mpr (List.nodup_cons.mpr ⟨?_, hs.frames_distinct⟩)
      simpa using fun q h => hs.frame_unmapped (q, f) h rfl
    frames_mapped := fun g hg => by
      by_cases hgf : g = f.toNat
      · exact ⟨(p, f), hperm.mem_iff.mpr List.mem_cons_self, hgf.symm⟩
      · obtain ⟨e, he, heq⟩ := hs.frames_mapped g hg hgf
        exact ⟨e, hperm.mem_iff.mpr (List.mem_cons_of_mem _ he), heq⟩
    frames_hold := fun e he => by
      rcases mem_ptSet he with rfl | hold
      · exact frameHoldsPage_frameWrite_same f hstore
      · have hheld := hs.frames_hold e hold
        exact frameHoldsPage_frameWrite_other (storePage_length hstore) (hs.frame_unmapped e hold) hheld
    tlb_length := hlegal.tlb_length
    tlb_unique := hlegal.tlb_unique
    victim_zero := hlegal.victim_zero }

theorem Coherent.faultState (hs : Coherent s) (hlegal : s.Legal) {p : Nat} (hpage : p < s.cfg.numPages)
    (hp : ptLookup s.pt p = none) (hstore : (p + 1) * s.cfg.pageSize ≤ s.cfg.storeLen) :
    Coherent (faultState s p) := by
  have hlegal' := hlegal.faultState hpage hstore
  rw [faultState_eq_fillFrame] at hlegal' ⊢
  refine (hs.frameAlloc hlegal).fillFrame hlegal' (ptLookup_eq_none.mpr fun e he => ptLookup_eq_none.mp hp e ?_) ?_
  · rcases frameAlloc_cases s with ⟨-, h⟩ | ⟨-, h⟩ <;> rw [h] at he
    · exact he
    · exact (mem_ptInvalidateFrame.mp he).left
  · rwa [frameAlloc_cfg]

/-! ### The other paths of TRANSLATE -/

theorem Coherent.answer (hs : Coherent s) (w : Word64) : Coherent (answer s w) := { hs with }

theorem Coherent.withInputs (hs : Coherent s) (ins : List HostInput) : Coherent { s with inputs := ins } := { hs with }

theorem Coherent.countLookup (hs : Coherent s) (hit fault : Bool) : Coherent (countLookup s hit fault) := { hs with }

/-- A mapping of the page table cached in the TLB (R242). -/
theorem Coherent.tlbInsert (hs : Coherent s) {cap p : Nat} {f : FrameNo}
    (hlegal : ({ s with tlb := (tlbInsert cap s.tlb p f).tlb } : State).Legal) (hpt : ptLookup s.pt p = some f) :
    Coherent { s with tlb := (tlbInsert cap s.tlb p f).tlb } :=
  { hs with
    tlb_agrees := fun e he => by
      rcases tlbInsert_mem he with hold | rfl
      · exact hs.tlb_agrees e hold
      · exact hpt
    tlb_length := hlegal.tlb_length
    tlb_unique := hlegal.tlb_unique }

/-! ### Every command but the four -/

theorem Coherent.effect (hs : Coherent s) (hlegal : s.Legal) {i : Instr} (hi : breaksCoherence i = false) {u : State}
    (h : Effect s i u) : Coherent u := by
  cases h with
  | unchanged => exact hs
  | tlbInserted | ptInserted | allocated | loaded => cases hi
  | hit => exact hs.countLookup true false
  | refilled _ hpt =>
    have hframe := hlegal.pt_frames _ (ptLookup_mem hpt)
    exact (hs.tlbInsert (hlegal.tlbInsert (decompose_page_lt _ _) hframe) hpt).countLookup false false
  | faulted _ hpt hstore =>
    exact (hs.faultState hlegal (decompose_page_lt _ _) hpt hstore).countLookup false true

end

theorem coherent_applyReset (s : State) : Coherent (applyReset s) := { coherent_boot s.cfg with }

theorem breaksCoherence_of_keepsCoherence {w : Word64} {i : Instr} (hw : decodeWord w = .ok i)
    (h : keepsCoherence (.command w) = true) : breaksCoherence i = false := by
  simpa [keepsCoherence, hw] using h

/-- Settles O55: of the effects of commands only those of the four break the invariants, the page fault included. -/
theorem stepKeepsCoherence : Obligations.StepKeepsCoherence := by
  intro s t hlegal hs hkeeps hstep
  obtain ⟨-, ⟨-, rfl⟩ | ⟨w, rest, i, hin, hw, hexec⟩ | ⟨w, rest, r, -, -, rfl⟩ | ⟨rest, -, rfl⟩⟩ := step_cases hstep
  · exact hs
  · have hi : breaksCoherence i = false := breaksCoherence_of_keepsCoherence hw (hkeeps _ (by rw [hin]; rfl))
    obtain ⟨u, r, heffect, rfl⟩ := exec_effect hexec
    exact ((hs.withInputs rest).effect (hlegal.withInputs rest) hi heffect).answer r
  · exact (hs.withInputs rest).answer _
  · exact coherent_applyReset _

end Sys2Proof.Machine
end

section
/-! The counters and `FREE_NEXT` over a step (45_stats.md R271, R274, 43_frames.md R202), and the invariants along a
run without the four maintenance commands (44_translate.md R250, 45_stats.md R274). -/
namespace Sys2Proof.Machine
open Sys2Proof

/-! ### The counters -/

/-- A command leaves the counters, or counts one lookup that is not both a hit and a fault (R244, R270). -/
theorem Effect.counters {s u : State} {i : Instr} (h : Effect s i u) :
    SameCounters s u ∨
      ∃ hit fault : Bool, hit.toNat + fault.toNat ≤ 1 ∧ SameCounters (countLookup s hit fault) u := by
  cases h with
  | unchanged | tlbInserted | ptInserted | loaded => exact .inl ⟨rfl, rfl, rfl⟩
  | allocated => exact .inl (sameCounters_frameAlloc s)
  | hit => exact .inr ⟨true, false, by decide, rfl, rfl, rfl⟩
  | refilled => exact .inr ⟨false, false, by decide, rfl, rfl, rfl⟩
  | faulted =>
    exact .inr ⟨false, true, by decide, (sameCounters_faultState s _).countLookup (faultState_cfg s _) false true⟩

/-- Two states with the same counters and configuration agree on R274. -/
theorem countersAgree_of_sameCounters {s t : State} (hcfg : t.cfg = s.cfg) (h : SameCounters s t)
    (hs : CountersAgree s) : CountersAgree t := by
  obtain ⟨hhits, hfaults, hlookups⟩ := h
  simpa only [CountersAgree, hcfg, hhits, hfaults, hlookups] using hs

/-- A lookup that does not saturate `LOOKUPS` counts at most one more hit or fault. -/
theorem countersAgree_countLookup {s : State} (hs : CountersAgree s) {hit fault : Bool}
    (hone : hit.toNat + fault.toNat ≤ 1) : CountersAgree (countLookup s hit fault) := by
  intro hlt
  simp only [countLookup_lookups, countLookup_hits, countLookup_faults, countLookup_cfg, sat] at hlt ⊢
  have hbefore := hs (by omega)
  omega

theorem countersAgree_effect {s u : State} {i : Instr} (h : Effect s i u) (hs : CountersAgree s) : CountersAgree u := by
  rcases h.counters with hsame | ⟨hit, fault, hone, hsame⟩
  · exact countersAgree_of_sameCounters h.cfg_eq hsame hs
  · have hcounted := countersAgree_countLookup hs hone
    exact countersAgree_of_sameCounters (s := countLookup s hit fault) h.cfg_eq hsame hcounted

/-- Settles O48: a step counts one lookup for at most one hit or fault, or it leaves or clears the counters. -/
theorem stepKeepsTheCountersRelation : Obligations.StepKeepsTheCountersRelation := by
  intro s t hs hstep
  obtain ⟨-, ⟨-, rfl⟩ | ⟨w, rest, i, -, -, hexec⟩ | ⟨w, rest, r, -, -, rfl⟩ | ⟨rest, -, rfl⟩⟩ := step_cases hstep
  · exact hs
  · obtain ⟨u, r, heffect, rfl⟩ := exec_effect hexec
    have hu : CountersAgree u := countersAgree_effect heffect hs
    exact hu
  · exact hs
  · exact fun _ => Nat.le_refl 0

/-! ### What never decreases -/

/-- The second state's counters and `FREE_NEXT` are no smaller, and a saturated counter is as it was. -/
structure NotBefore (s t : State) : Prop where
  hits : s.hits ≤ t.hits
  faults : s.faults ≤ t.faults
  lookups : s.lookups ≤ t.lookups
  freeNext : s.freeNext.toNat ≤ t.freeNext.toNat
  hits_max : s.hits = s.cfg.cntMax → t.hits = s.cfg.cntMax
  faults_max : s.faults = s.cfg.cntMax → t.faults = s.cfg.cntMax
  lookups_max : s.lookups = s.cfg.cntMax → t.lookups = s.cfg.cntMax

/-- The free path advances `FREE_NEXT` and the reclaim path leaves it at the limit (R201 to R203). -/
theorem frameAlloc_freeNext {s : State} (hs : s.Legal) :
    (frameAlloc s).st.freeNext.toNat = min (s.freeNext.toNat + 1) s.cfg.frameLimit := by
  rcases hs.free_or_exhausted with hfree | hfull
  · rw [frameAlloc_freeNext_of_free hs hfree, min_eq_left hfree]
  · rw [min_eq_right (hfull ▸ Nat.le_succ _), frameAlloc_of_exhausted hfull, ← hfull]
    rfl

theorem Effect.freeNext_le {s u : State} (hs : s.Legal) {i : Instr} (h : Effect s i u) :
    s.freeNext.toNat ≤ u.freeNext.toNat := by
  have halloc : s.freeNext.toNat ≤ (frameAlloc s).st.freeNext.toNat := by
    rw [frameAlloc_freeNext hs]
    exact le_min (Nat.le_succ _) hs.freeNext_range
  cases h with
  | allocated | faulted => exact halloc
  | _ => exact le_rfl

theorem Effect.notBefore {s u : State} (hs : s.Legal) {i : Instr} (h : Effect s i u) : NotBefore s u := by
  have hfree := h.freeNext_le hs
  have hhits := hs.hits_range
  have hfaults := hs.faults_range
  have hlookups := hs.lookups_range
  rcases h.counters with ⟨h1, h2, h3⟩ | ⟨hit, fault, -, h1, h2, h3⟩
  · exact ⟨h1.ge, h2.ge, h3.ge, hfree, h1.trans, h2.trans, h3.trans⟩
  · simp only [countLookup_hits, countLookup_faults, countLookup_lookups, sat] at h1 h2 h3
    constructor <;> omega

/-- Settles O47: only a command's effect writes them, and it adds to them or saturates. -/
theorem countersAndFreeNextNeverDecrease : Obligations.CountersAndFreeNextNeverDecrease := by
  intro s t hs hnoReset hstep
  have hle : NotBefore s t := by
    have hsame : NotBefore s s := ⟨le_rfl, le_rfl, le_rfl, le_rfl, id, id, id⟩
    obtain ⟨-, ⟨-, rfl⟩ | ⟨w, rest, i, -, -, hexec⟩ | ⟨w, rest, r, -, -, rfl⟩ | ⟨rest, hin, -⟩⟩ := step_cases hstep
    · exact hsame
    · obtain ⟨u, r, heffect, rfl⟩ := exec_effect hexec
      exact { heffect.notBefore (hs.withInputs rest) with }
    · exact { hsame with }
    · rw [hin] at hnoReset
      exact absurd rfl hnoReset
  exact ⟨hle.hits, hle.faults, hle.lookups, hle.freeNext, hle.hits_max, hle.faults_max, hle.lookups_max⟩

/-! ### Along a run -/

theorem run_succ_eq_next {M : Host.Core} {k : Nat} {s t : M.State} (h : M.run (k + 1) s = .next t) :
    ∃ u, M.step s = .next u ∧ M.run k u = .next t := by
  unfold Host.Core.run at h
  split at h
  · exact ⟨_, ‹_›, h⟩
  · cases h
  · cases h

/-- What every step keeps holds at the end of every run that does not stop. -/
theorem run_preserves {M : Host.Core} {P : M.State → Prop} (hstep : ∀ s t, P s → M.step s = .next t → P t) (k : Nat) :
    ∀ s t : M.State, P s → M.run k s = .next t → P t := by
  induction k with
  | zero =>
    intro s t hs h
    cases h
    exact hs
  | succ k ih =>
    intro s t hs h
    obtain ⟨u, hu, hrest⟩ := run_succ_eq_next h
    exact ih u t (hstep s u hs hu) hrest

/-- A step takes the host's inputs from their head. -/
theorem step_inputs_subset {s t : State} (h : step s = .next t) : ∀ x ∈ t.inputs, x ∈ s.inputs := by
  obtain ⟨-, ⟨-, rfl⟩ | ⟨w, rest, i, hin, -, hexec⟩ | ⟨w, rest, r, hin, -, rfl⟩ | ⟨rest, hin, rfl⟩⟩ := step_cases h
  · exact fun x hx => hx
  · obtain ⟨-, -, hinputs⟩ := commandsKeepTheParameters i _ t hexec
    rw [hinputs, hin]
    exact fun x hx => List.mem_cons_of_mem _ hx
  · rw [hin]
    exact fun x hx => List.mem_cons_of_mem _ hx
  · rw [hin]
    exact fun x hx => List.mem_cons_of_mem _ hx

/-- While `FAULTS` has not saturated, it counts the allocated frames up to the limit (R274). -/
def FaultsCountFrames (s : State) : Prop :=
  s.faults < s.cfg.cntMax → s.freeNext.toNat = min s.faults s.cfg.frameLimit

/-- Of the commands that keep the invariants only a page fault allocates a frame, and it alone counts a fault. -/
theorem faultsCountFrames_effect {s u : State} (hs : s.Legal) {i : Instr} (hi : breaksCoherence i = false)
    (h : Effect s i u) (hcount : FaultsCountFrames s) : FaultsCountFrames u := by
  intro hlt
  cases h with
  | unchanged => exact hcount hlt
  | tlbInserted | ptInserted | allocated | loaded => cases hi
  | hit | refilled =>
    simp only [countLookup_faults, countLookup_freeNext, countLookup_cfg, sat, Bool.toNat_false] at hlt ⊢
    have hbefore := hcount (by omega)
    omega
  | faulted =>
    simp only [countLookup_faults, countLookup_freeNext, countLookup_cfg, faultState_cfg, faultState_faults,
      faultState_freeNext, frameAlloc_freeNext hs, sat, Bool.toNat_true] at hlt ⊢
    have hbefore := hcount (by omega)
    omega

theorem faultsCountFrames_step {s t : State} (hs : s.Legal) (hcount : FaultsCountFrames s)
    (hkeeps : ∀ x ∈ s.inputs, keepsCoherence x = true) (hstep : step s = .next t) : FaultsCountFrames t := by
  obtain ⟨-, ⟨-, rfl⟩ | ⟨w, rest, i, hin, hw, hexec⟩ | ⟨w, rest, r, -, -, rfl⟩ | ⟨rest, -, rfl⟩⟩ := step_cases hstep
  · exact hcount
  · have hi : breaksCoherence i = false :=
      breaksCoherence_of_keepsCoherence hw (hkeeps _ (hin ▸ List.mem_cons_self))
    obtain ⟨u, r, heffect, rfl⟩ := exec_effect hexec
    have hu : FaultsCountFrames u := faultsCountFrames_effect (hs.withInputs rest) hi heffect hcount
    exact hu
  · exact hcount
  · exact fun _ => (Nat.zero_min _).symm

/-- What holds after every command of a sequence from reset without the four maintenance commands (R250). -/
structure Undisturbed (s : State) : Prop where
  legal : s.Legal
  coherent : Coherent s
  inputs_keep : ∀ x ∈ s.inputs, keepsCoherence x = true
  faults_count : FaultsCountFrames s

theorem undisturbed_boot {c : Config} (hc : c.WellFormed) {ins : List HostInput}
    (hins : ∀ x ∈ ins, keepsCoherence x = true) : Undisturbed { State.boot c with inputs := ins } where
  legal := (legal_boot hc).withInputs ins
  coherent := (coherent_boot c).withInputs ins
  inputs_keep := hins
  faults_count _ := (Nat.zero_min _).symm

theorem Undisturbed.step {s t : State} (hs : Undisturbed s) (h : step s = .next t) : Undisturbed t where
  legal := stepKeepsStatesLegal s t hs.legal h
  coherent := stepKeepsCoherence s t hs.legal hs.coherent
    (fun x hx => hs.inputs_keep x (List.mem_of_mem_head? hx)) h
  inputs_keep x hx := hs.inputs_keep x (step_inputs_subset h x hx)
  faults_count := faultsCountFrames_step hs.legal hs.faults_count hs.inputs_keep h

theorem undisturbed_run {c : Config} (hc : c.WellFormed) {ins : List HostInput}
    (hins : ∀ x ∈ ins, keepsCoherence x = true) {k : Nat} {s : State}
    (h : Sys2Proof.core.run k { State.boot c with inputs := ins } = .next s) : Undisturbed s :=
  run_preserves (M := Sys2Proof.core) (fun _ _ hs hstep => hs.step hstep) k _ s (undisturbed_boot hc hins) h

/-- I2 as a count: the resident pages are in bijection with the allocated frames. -/
theorem Coherent.pt_length {s : State} (hs : Coherent s) : s.pt.length = s.freeNext.toNat := by
  have hdistinct : (s.pt.map fun e => e.2.toNat).Nodup := by
    have h := hs.frames_distinct.map (f := BitVec.toNat) fun _ _ => BitVec.eq_of_toNat_eq
    rwa [List.map_map] at h
  have hperm : (s.pt.map fun e => e.2.toNat).Perm (List.range s.freeNext.toNat) := by
    refine (List.perm_ext_iff_of_nodup hdistinct List.nodup_range).mpr fun f => ?_
    rw [List.mem_map, List.mem_range]
    constructor
    · rintro ⟨e, he, rfl⟩
      exact hs.frames_allocated e he
    · exact hs.frames_mapped f
  simpa using hperm.length_eq

/-- Settles O56: the invariants hold at reset and every step of such a run keeps them. -/
theorem coherentAlongEverySequence : Obligations.CoherentAlongEverySequence := by
  intro c ins k s hc hins hrun
  have hs := undisturbed_run hc hins hrun
  exact ⟨hs.coherent, hs.coherent.pt_length⟩

/-- Settles O57: along such a run the resident pages are as many as the allocated frames, which the faults count. -/
theorem residentPagesAreTheFaultsUpToTheLimit : Obligations.ResidentPagesAreTheFaultsUpToTheLimit := by
  intro c ins k s hc hins hrun hlt
  have hs := undisturbed_run hc hins hrun
  exact hs.coherent.pt_length.trans (hs.faults_count hlt)

end Sys2Proof.Machine
end

section
/-! Responses and errors (30_encoding.md R105 to R111, 60_exceptions.md R300 to R307): the host's reader, the response
to every request word, the order of the checks, and which command answers which error; then the step on each input and
what reset sets (70_reset_and_hazards.md R340 to R351). -/
namespace Sys2Proof.Machine
open Sys2Proof

/-! ### Reading a response -/

theorem readResponse_okWord (r : Reply) : readResponse (okWord r) = some (.ok r) := by
  obtain ⟨hstatus, hhit, hfault, hevict, hrrsv, hres1, hres0⟩ := okWord_fields r
  simp [readResponse, hstatus, hhit, hfault, hevict, hrrsv, hres1, hres0]

theorem readResponse_errorWord (e : XbError) : readResponse (errorWord e) = some (.error e) := by
  cases e <;> decide

/-- The reserved status codes of R111. -/
theorem readResponse_of_reserved {w : Word64} (h : 4 ≤ (respStatus w).toNat ∨ respRrsv w ≠ 0) :
    readResponse w = none := by
  by_cases hrrsv : respRrsv w = 0
  · obtain ⟨n, hn⟩ := Nat.exists_eq_add_of_le (h.resolve_right (absurd hrrsv))
    simp [readResponse, hrrsv, hn, Nat.add_comm 4 n]
  · exact if_pos hrrsv

/-- Settles O9: the reader takes apart what `okWord` and `errorWord` put together. -/
theorem responseWordsReadBack : Obligations.ResponseWordsReadBack :=
  ⟨readResponse_okWord, readResponse_errorWord, fun _ => readResponse_of_reserved⟩

/-! ### Every request is answered -/

/-- Both forms of response keep to R110 and R111: `okWord` and `errorWord`. -/
theorem complete_response_legal (s : State) (c : Except XbError (State × Reply)) :
    ∃ t r, complete s c = .next t ∧ t.response = some r ∧ (respStatus r).toNat ≤ 3 ∧ respRrsv r = 0 ∧
      (respStatus r ≠ 0 → r = respStatus r ++ (0 : BitVec 61)) := by
  rcases complete_cases s c with ⟨t, reply, -, he⟩ | ⟨e, -, he⟩
  · obtain ⟨hstatus, -, -, -, hrrsv, -⟩ := okWord_fields reply
    exact ⟨_, okWord reply, he, rfl, by simp [hstatus], hrrsv, absurd hstatus⟩
  · refine ⟨_, errorWord e, he, rfl, ?_⟩
    cases e <;> decide

/-- Settles O10: every request ends in `complete`. -/
theorem everyRequestGetsALegalResponse : Obligations.EveryRequestGetsALegalResponse := by
  intro w s
  obtain ⟨c, hc⟩ := answerRequest_eq_complete w s
  rw [hc]
  exact complete_response_legal s c

/-- Settles O15: every command ends in `complete`, and the port stops only on a broken host duty. -/
theorem xbNeverStopsItself : Obligations.XbNeverStopsItself := by
  refine ⟨exec_eq_next, fun s hc hduty => ?_⟩
  rw [step_of_wellFormed hc]
  rcases serve_cases s with ht | ⟨w, rest, hin, -⟩
  · exact ht
  · have hbroken := hduty (.commandWhileOutstanding w) (by rw [hin]; rfl)
    cases hbroken

/-! ### The order of the checks -/

theorem decodeWord_of_reservedOpcode {w : Word64} (h : opcodeOf (fieldOp w) = none) :
    decodeWord w = .error (.reservedOpcode (fieldOp w)) := by
  simp [decodeWord, h]

section
variable {w : Word64} {o : Opcode}

theorem decodeWord_of_reservedBits (hop : opcodeOf (fieldOp w) = some o) (hrsv : fieldRsv w ≠ 0) :
    decodeWord w = .error .reservedBits := by
  rw [decodeWord, hop]
  exact if_pos hrsv

theorem decodeWord_of_unusedOperand (hop : opcodeOf (fieldOp w) = some o) (hrsv : fieldRsv w = 0)
    (hunused : unusedOperandSet o (fieldA w) (fieldB w) = true) : decodeWord w = .error .unusedOperand := by
  simp [decodeWord, hop, hrsv, hunused]

end

/-- Settles O13: each check is reached when those before it pass; a legal word's command answers its ranges first. -/
theorem checksRunInOrder : Obligations.ChecksRunInOrder := by
  refine fun w s => ⟨decodeWord_of_reservedOpcode, fun o hop => ⟨decodeWord_of_reservedBits hop, fun hrsv =>
    ⟨fun hset => ?unused, fun ha hb => ?legal⟩⟩⟩
  case unused => exact decodeWord_of_unusedOperand hop hrsv ((unusedOperandSet_eq_true_iff _ _ _).mpr hset)
  case legal =>
    have hdecode := decodeWord_of_legalFor ⟨hop, hrsv, (unusedOperandSet_eq_false_iff _ _ _).mpr ⟨ha, hb⟩⟩
    have hanswer := answerRequest_of_decodeWord_ok hdecode s
    exact ⟨hdecode, fun hrange => hanswer.trans (exec_of_not_wellFormed hrange), fun _ => hanswer⟩

/-! ### Which command answers which error -/

/-- The command needs a page of the backing store that the store does not wholly hold (R212, R248). -/
def PageMissing (s : State) (i : Instr) : Prop :=
  (∃ f page, i = .frameLoad f page ∧ s.cfg.storeLen < (page.toNat + 1) * s.cfg.pageSize) ∨
  (∃ la, i = .translate la ∧ (∀ e ∈ s.tlb, e.page ≠ (decompose s.cfg la).1) ∧
    (∀ e ∈ s.pt, e.1 ≠ (decompose s.cfg la).1) ∧
    s.cfg.storeLen < ((decompose s.cfg la).1 + 1) * s.cfg.pageSize)

section
variable {s : State} {i : Instr}

theorem exec_of_pageMissing (hwf : wellFormed s.cfg i = true) (h : PageMissing s i) :
    exec i s = .next (raise .storeReadError s) := by
  rcases h with ⟨f, page, rfl, hstore⟩ | ⟨la, rfl, htlb, hpt, hstore⟩
  · simp only [wellFormed, pageInRange, frameInRange, Bool.and_eq_true, decide_eq_true_eq] at hwf
    rcases exec_frameLoad_cases f page s with ⟨-, -, h, -⟩ | ⟨-, -, -, he⟩ | ⟨h, -⟩
    · omega
    · exact he
    · omega
  · exact exec_translate_of_resolve_error (resolve_of_missing htlb hpt hstore)

/-- In a legal state every path of TRANSLATE settles a frame in range (R245). -/
theorem State.Legal.resolve_frame_lt (hs : s.Legal) {p : Nat} {r : Resolution} (h : resolve s p = .ok r) :
    r.frame.toNat < s.cfg.frameLimit := by
  rcases resolve_cases s p with ⟨f, htlb, he⟩ | ⟨f, -, hpt, he⟩ | ⟨-, -, -, he⟩ | ⟨-, -, -, he⟩ <;>
    cases he.symm.trans h
  · exact hs.tlb_frames _ (tlbLookup_mem htlb)
  · exact hs.pt_frames _ (ptLookup_mem hpt)
  · exact hs.frameAlloc_frame_lt

theorem pageMissing_of_resolve_error {la : OperandA} {e : XbError} (h : resolve s (decompose s.cfg la).1 = .error e) :
    PageMissing s (.translate la) := by
  rcases resolve_cases s (decompose s.cfg la).1 with ⟨f, -, he⟩ | ⟨f, -, -, he⟩ | ⟨-, -, -, he⟩ | ⟨htlb, hpt, hstore, -⟩
  · cases he.symm.trans h
  · cases he.symm.trans h
  · cases he.symm.trans h
  · exact .inr ⟨la, rfl, tlbLookup_eq_none.mp htlb, ptLookup_eq_none.mp hpt, hstore⟩

/-- A legal state's command with operands in range and its page in the store completes. -/
theorem exec_ok_of_not_pageMissing (hs : s.Legal) (hwf : wellFormed s.cfg i = true) (hpage : ¬ PageMissing s i) :
    ∃ u reply, exec i s = .next (answer u (okWord reply)) := by
  cases i with
  | translate la =>
    rcases exec_translate_cases la s with ⟨r, -, -, -, he⟩ | ⟨r, hr, hf, -⟩ | ⟨hr, -⟩
    · exact ⟨_, _, he⟩
    · exact absurd (hs.resolve_frame_lt hr) hf.not_gt
    · exact absurd (pageMissing_of_resolve_error hr) hpage
  | decode la => exact ⟨_, _, exec_decode la s⟩
  | frameAlloc => exact ⟨_, _, exec_frameAlloc s⟩
  | tlbLookup page =>
    simp only [wellFormed, pageInRange, decide_eq_true_eq] at hwf
    rcases exec_tlbLookup_cases page s with ⟨-, f, -, he⟩ | ⟨-, -, he⟩ | ⟨h, -⟩
    · exact ⟨_, _, he⟩
    · exact ⟨_, _, he⟩
    · omega
  | tlbInsert page f =>
    simp only [wellFormed, pageInRange, frameInRange, Bool.and_eq_true, decide_eq_true_eq] at hwf
    rcases exec_tlbInsert_cases page f s with ⟨-, -, he⟩ | ⟨h, -⟩
    · exact ⟨_, _, he⟩
    · omega
  | tlbRead index =>
    simp only [wellFormed, slotInRange, decide_eq_true_eq] at hwf
    rcases exec_tlbRead_cases index s with ⟨-, e, -, he⟩ | ⟨-, -, he⟩ | ⟨h, -⟩
    · exact ⟨_, _, he⟩
    · exact ⟨_, _, he⟩
    · omega
  | ptLookup page =>
    simp only [wellFormed, pageInRange, decide_eq_true_eq] at hwf
    rcases exec_ptLookup_cases page s with ⟨-, f, -, he⟩ | ⟨-, -, he⟩ | ⟨h, -⟩
    · exact ⟨_, _, he⟩
    · exact ⟨_, _, he⟩
    · omega
  | ptInsert page f =>
    simp only [wellFormed, pageInRange, frameInRange, Bool.and_eq_true, decide_eq_true_eq] at hwf
    rcases exec_ptInsert_cases page f s with ⟨-, -, he⟩ | ⟨h, -⟩
    · exact ⟨_, _, he⟩
    · omega
  | frameLoad f page =>
    simp only [wellFormed, pageInRange, frameInRange, Bool.and_eq_true, decide_eq_true_eq] at hwf
    rcases exec_frameLoad_cases f page s with ⟨-, -, -, he⟩ | ⟨-, -, hstore, -⟩ | ⟨h, -⟩
    · exact ⟨_, _, he⟩
    · exact absurd (.inl ⟨f, page, rfl, hstore⟩) hpage
    · omega
  | frameRead f offset =>
    simp only [wellFormed, offsetInRange, frameInRange, Bool.and_eq_true, decide_eq_true_eq] at hwf
    rcases exec_frameRead_cases f offset s with ⟨-, -, he⟩ | ⟨h, -⟩
    · exact ⟨_, _, he⟩
    · omega
  | statsRead sel =>
    simp only [wellFormed, selectorInRange, decide_eq_true_eq] at hwf
    rcases exec_statsRead_cases sel s with ⟨-, he⟩ | ⟨h, -⟩
    · exact ⟨_, _, he⟩
    · omega

end

/-- Settles O14: the ranges decide OUT_OF_RANGE, the missing page STORE_READ_ERROR, and the rest completes. -/
theorem errorsByCommand : Obligations.ErrorsByCommand := by
  intro i s t r hs hexec hr
  show respStatus r ≠ 1 ∧ _ ∧ (respStatus r = 3 ↔ wellFormed s.cfg i = true ∧ PageMissing s i)
  cases hwf : wellFormed s.cfg i with
  | false =>
    cases (exec_of_not_wellFormed hwf).symm.trans hexec
    cases hr
    exact ⟨by decide, iff_of_true rfl rfl, iff_of_false (by decide) (by simp)⟩
  | true =>
    by_cases hpage : PageMissing s i
    · cases (exec_of_pageMissing hwf hpage).symm.trans hexec
      cases hr
      exact ⟨by decide, iff_of_false (by decide) (by simp), iff_of_true rfl ⟨rfl, hpage⟩⟩
    · obtain ⟨u, reply, hok⟩ := exec_ok_of_not_pageMissing hs hwf hpage
      cases hok.symm.trans hexec
      cases hr
      rw [respStatus_okWord]
      exact ⟨by decide, iff_of_false (by decide) (by simp), iff_of_false (by decide) fun h => hpage h.right⟩

/-! ### The step and reset -/

section
variable {s : State} {rest : List HostInput}

theorem serve_nil (h : s.inputs = []) : serve s = .next s := by
  simp only [serve, h]

theorem serve_command {w : Word64} (h : s.inputs = .command w :: rest) :
    serve s = answerRequest w { s with inputs := rest } := by
  simp only [serve, h]

theorem serve_commandWhileOutstanding {w : Word64} (h : s.inputs = .commandWhileOutstanding w :: rest) :
    serve s = .fault .requestWhileOutstanding := by
  simp only [serve, h]

theorem serve_reset (h : s.inputs = .reset :: rest) : serve s = .next (applyReset { s with inputs := rest }) := by
  simp only [serve, h]

end

/-- Settles O49: the port takes the word and answers it with the command it decodes to. -/
theorem stepRunsTheDecodedCommand : Obligations.StepRunsTheDecodedCommand := by
  intro s w rest i hc hin hw
  rw [step_of_wellFormed hc, serve_command hin, answerRequest_of_decodeWord_ok hw]

/-- Settles O50: the port's three other cases. -/
theorem stepOnOtherInputs : Obligations.StepOnOtherInputs := by
  intro s w rest hc
  rw [step_of_wellFormed hc]
  exact ⟨serve_nil, fun r hin hw => (serve_command hin).trans (answerRequest_of_decodeWord_error hw _),
    serve_commandWhileOutstanding⟩

/-- With no byte written the frame store reads as its draw (R341). -/
theorem memRead_of_frame_nil {s : State} (h : s.frame = []) (f : FrameNo) {o : Nat} (ho : o < s.cfg.pageSize) :
    memRead s (f.toNat * s.cfg.pageSize + o) = Config.frameInit s.draw f.toNat o :=
  memRead_of_unwritten ho (by simp [h])

/-- Settles O52: the fields `applyReset` and `State.boot` write. -/
theorem resetSetsEveryElement : Obligations.ResetSetsEveryElement := by
  refine ⟨fun s rest hc hin => ?_, ?_⟩
  · refine ⟨applyReset { s with inputs := rest }, (step_of_wellFormed hc).trans (serve_reset hin), rfl,
      fun _ => rfl, rfl, rfl, rfl, rfl, rfl, rfl, rfl, fun f o ho => ?_⟩
    exact memRead_of_frame_nil (s := applyReset { s with inputs := rest }) rfl f ho
  · exact ⟨rfl, fun _ => rfl, rfl, rfl, rfl, rfl, rfl, fun f o ho => memRead_of_frame_nil rfl f ho⟩

end Sys2Proof.Machine
end

section
/-! The commands other than TRANSLATE, run on operands in range: the exact response and the exact next state
(40_address_codec.md R143, 41_tlb.md R155 to R163, 42_page_table.md R190, R191, 43_frames.md R210 to R214, 45_stats.md
R273). -/
namespace Sys2Proof.Machine
open Sys2Proof

/-! ### Values that fit their result fields -/

section
variable {c : Config}

theorem page_lt_of_wellFormed (hc : c.WellFormed) {p : Nat} (hp : p < c.numPages) : p < 2 ^ 32 := by
  obtain ⟨-, -, hbits, -⟩ := hc
  exact hp.trans_le (Nat.pow_le_pow_right (by decide) (by omega))

theorem offset_lt_of_wellFormed (hc : c.WellFormed) {o : Nat} (ho : o < c.pageSize) : o < 2 ^ 16 := by
  obtain ⟨⟨-, hbits⟩, -⟩ := hc
  exact ho.trans_le (Nat.pow_le_pow_right (by decide) hbits)

end

theorem okWord_empty : okWord {} = 0 := by decide

/-- Settles O17: page and offset fit the fields they are answered in. -/
theorem decodeAnswersPageAndOffset : Obligations.DecodeAnswersPageAndOffset := by
  intro la s hc
  rw [exec_decode, res0OfNat_small (page_lt_of_wellFormed hc (decompose_page_lt _ _)),
    res1OfNat_small (offset_lt_of_wellFormed hc (decompose_offset_lt _ _)), decompose_page, decompose_offset]
  rfl

/-! ### The TLB -/

theorem count_tlbInvalidateFrame (tlb : List TlbEntry) (f : FrameNo) (e : TlbEntry) :
    (tlbInvalidateFrame tlb f).count e = if e.frame = f then 0 else tlb.count e := by
  split
  next hf => exact List.count_eq_zero.mpr fun he => (mem_tlbInvalidateFrame.mp he).right hf
  next hf => exact List.count_filter (by simpa using hf)

/-- Settles O20: the TLB is filtered by the frame. -/
theorem tlbInvalidateKeepsTheRestInOrder : Obligations.TlbInvalidateKeepsTheRestInOrder := by
  refine fun tlb f => ⟨tlbInvalidateFrame_sublist tlb f, fun e => ?_, fun e he => (mem_tlbInvalidateFrame.mp he).right⟩
  rw [count_tlbInvalidateFrame]
  split <;> omega

section
variable {s : State} {page : OperandA} {f : FrameNo}

theorem exec_tlbLookup_of_some (hp : page.toNat < s.cfg.numPages) (hl : tlbLookup s.tlb page.toNat = some f) :
    exec (.tlbLookup page) s = .next (answer s (okWord { hit := true, res0 := f.setWidth 32 })) := by
  rcases exec_tlbLookup_cases page s with ⟨-, g, hg, he⟩ | ⟨-, hg, -⟩ | ⟨h, -⟩
  · cases hg.symm.trans hl
    rw [he, res0OfNat_frame]
  · cases hg.symm.trans hl
  · exact absurd hp h.not_gt

theorem exec_tlbLookup_of_none (hp : page.toNat < s.cfg.numPages) (hl : tlbLookup s.tlb page.toNat = none) :
    exec (.tlbLookup page) s = .next (answer s 0) := by
  rcases exec_tlbLookup_cases page s with ⟨-, g, hg, -⟩ | ⟨-, -, he⟩ | ⟨h, -⟩
  · cases hg.symm.trans hl
  · rw [he, okWord_empty]
  · exact absurd hp h.not_gt

/-- Rule R152. -/
theorem tlbInsert_of_present {t : List TlbEntry} {p : Nat} {g : FrameNo} (hpresent : tlbLookup t p = some g) (cap : Nat)
    (f : FrameNo) : tlbInsert cap t p f = ⟨t, some g, none⟩ := by
  simp [tlbInsert, hpresent]

/-- TLB_INSERT with its operands in range is the primitive and the response made of what it returns (R161). -/
theorem exec_tlbInsert_of_primitive (hp : page.toNat < s.cfg.numPages) (hf : f.toNat < s.cfg.frameLimit)
    {r : TlbInsertion} (hr : tlbInsert s.cfg.tlbCap s.tlb page.toNat f = r) :
    exec (.tlbInsert page f) s = .next (answer { s with tlb := r.tlb } (okWord (tlbInsertReply r))) := by
  subst hr
  rcases exec_tlbInsert_cases page f s with ⟨-, -, he⟩ | ⟨h, -⟩
  · exact he
  · omega

theorem tlbInsertReply_present (t : List TlbEntry) (g : FrameNo) :
    tlbInsertReply ⟨t, some g, none⟩ = { hit := true, res0 := g.setWidth 32 } := by
  rw [← res0OfNat_frame]
  rfl

end

/-- Settles O21: with unique pages any entry of the page is the one the lookup finds. -/
theorem tlbLookupAnswersTheFrame : Obligations.TlbLookupAnswersTheFrame := by
  refine fun page s hs hp => ⟨fun e he hpage => ?_, fun habsent => ?_⟩
  · exact exec_tlbLookup_of_some hp (hpage ▸ tlbLookup_of_mem hs.tlb_unique he)
  · exact exec_tlbLookup_of_none hp (tlbLookup_eq_none.mpr habsent)

/-- Settles O22: the three cases of the primitive, R152 to R154. -/
theorem tlbInsertAnswersAndUpdates : Obligations.TlbInsertAnswersAndUpdates := by
  refine fun page f s hs hp hf => ⟨fun e he hpage => ?present, fun habsent hfree => ?free,
    fun e0 rest htlb habsent hfull => ⟨?full, fun hbits => ?fits⟩⟩
  case present =>
    have hfound : tlbLookup s.tlb page.toNat = some e.frame := hpage ▸ tlbLookup_of_mem hs.tlb_unique he
    rw [exec_tlbInsert_of_primitive hp hf (tlbInsert_of_present hfound _ _), tlbInsertReply_present]
    rfl
  case free =>
    rw [exec_tlbInsert_of_primitive hp hf (tlbInsert_of_absent_of_lt f habsent hfree)]
    exact congrArg (fun w => Host.Outcome.next (answer _ w)) okWord_empty
  case full =>
    rw [exec_tlbInsert_of_primitive hp hf (tlbInsert_of_absent_of_ge f habsent hfull.ge), htlb]
    rfl
  case fits =>
    have hpage : e0.page < s.cfg.numPages := hs.tlb_pages e0 (htlb ▸ List.mem_cons_self)
    exact res1OfNat_small (hpage.trans_le (Nat.pow_le_pow_right (by decide) hbits))

/-- Settles O23: a slot in use holds the entry at its place in the list, whose page fits its result. -/
theorem tlbReadAnswersTheSlot : Obligations.TlbReadAnswersTheSlot := by
  refine fun index s hs hn => ⟨fun e he => ?occupied, fun hempty => ?empty⟩
  case occupied =>
    have hpage := page_lt_of_wellFormed hs.config (hs.tlb_pages e (List.mem_of_getElem? he))
    rcases exec_tlbRead_cases index s with ⟨-, d, hd, hexec⟩ | ⟨-, hd, -⟩ | ⟨h, -⟩
    · cases hd.symm.trans he
      rw [hexec, res0OfNat_small hpage]
      rfl
    · cases hd.symm.trans he
    · exact absurd hn h.not_gt
  case empty =>
    have hnone := List.getElem?_eq_none hempty
    rcases exec_tlbRead_cases index s with ⟨-, d, hd, -⟩ | ⟨-, -, hexec⟩ | ⟨h, -⟩
    · cases hd.symm.trans hnone
    · rw [hexec, okWord_empty]
      rfl
    · exact absurd hn h.not_gt

/-! ### The page table -/

section
variable {s : State} {page : OperandA} {f : FrameNo}

theorem exec_ptLookup_of_some (hp : page.toNat < s.cfg.numPages) (hl : ptLookup s.pt page.toNat = some f) :
    exec (.ptLookup page) s = .next (answer s (okWord { hit := true, res0 := f.setWidth 32 })) := by
  rcases exec_ptLookup_cases page s with ⟨-, g, hg, he⟩ | ⟨-, hg, -⟩ | ⟨h, -⟩
  · cases hg.symm.trans hl
    rw [he, res0OfNat_frame]
  · cases hg.symm.trans hl
  · exact absurd hp h.not_gt

theorem exec_ptLookup_of_none (hp : page.toNat < s.cfg.numPages) (hl : ptLookup s.pt page.toNat = none) :
    exec (.ptLookup page) s = .next (answer s 0) := by
  rcases exec_ptLookup_cases page s with ⟨-, g, hg, -⟩ | ⟨-, -, he⟩ | ⟨h, -⟩
  · cases hg.symm.trans hl
  · rw [he, okWord_empty]
  · exact absurd hp h.not_gt

end

/-- Settles O25: with the pages rising any mapping of the page is the one the lookup finds. -/
theorem ptLookupAnswersTheFrame : Obligations.PtLookupAnswersTheFrame := by
  refine fun page s hs hp => ⟨fun f hf => ?_, fun habsent => ?_⟩
  · exact exec_ptLookup_of_some hp (ptLookup_of_mem hs.pt_rising hf)
  · exact exec_ptLookup_of_none hp (ptLookup_eq_none.mpr habsent)

/-- Settles O26: the new table is `ptSet`'s, and the response shows the mapping it replaced. -/
theorem ptInsertMapsThePage : Obligations.PtInsertMapsThePage := by
  intro page f s hs hp hf
  rcases exec_ptInsert_cases page f s with ⟨-, -, he⟩ | ⟨h, -⟩
  · refine ⟨_, _, he, ptLookup_ptSet s.pt page.toNat f, fun g hg => ?_, fun habsent => ?_⟩
    · have hmapped : ptLookup s.pt page.toNat = some g := ptLookup_of_mem hs.pt_rising hg
      simp only [hmapped, res0OfNat_frame]
    · simp only [ptLookup_eq_none.mpr habsent]
  · omega

/-! ### Frames -/

theorem frameNo_add_one (f : FrameNo) : f + 1 = BitVec.ofNat 16 (f.toNat + 1) := by
  apply BitVec.eq_of_toNat_eq
  simp

theorem tlbInvalidateFrame_eq_filter (t : List TlbEntry) (f : FrameNo) :
    tlbInvalidateFrame t f = t.filter fun e => e.frame ≠ f :=
  List.filter_congr fun e _ => by by_cases h : e.frame = f <;> simp [h]

/-- Settles O32: the two paths of the allocator. -/
theorem frameAllocAnswersAndReclaims : Obligations.FrameAllocAnswersAndReclaims := by
  refine fun s hs => ⟨fun hfree => ?free, fun hfull => ?exhausted⟩
  case free =>
    rw [exec_frameAlloc, frameAlloc_of_free hfree, res0OfNat_frame, ← frameNo_add_one]
    rfl
  case exhausted =>
    refine ⟨ptInvalidateFrame s.pt s.victim, ?_, ptLookup_ptInvalidateFrame hs.pt_rising s.victim⟩
    rw [exec_frameAlloc, frameAlloc_of_exhausted hfull, res0OfNat_frame, ← tlbInvalidateFrame_eq_filter]
    rfl

/-- Settles O33: the page is read whole and written as one block, or the store read error is raised. -/
theorem frameLoadCopiesThePage : Obligations.FrameLoadCopiesThePage := by
  refine fun f page s hp hf => ⟨fun hstore => ?whole, fun hstore => ?short⟩
  case whole =>
    rcases exec_frameLoad_cases f page s with ⟨-, -, -, he⟩ | ⟨-, -, h, -⟩ | ⟨h, -⟩
    · rw [okWord_empty] at he
      refine ⟨_, he, rfl, fun o ho => ?_, fun pa hpa => memRead_frameWrite_outside (storePage_length hstore) hpa⟩
      exact (storePage_getElem? ho).symm.trans (memRead_frameWrite_inside (storePage_length hstore) ho).symm
    · exact absurd hstore h.not_ge
    · omega
  case short =>
    rcases exec_frameLoad_cases f page s with ⟨-, -, h, -⟩ | ⟨-, -, -, he⟩ | ⟨h, -⟩
    · exact absurd hstore h.not_gt
    · exact he
    · omega

/-- Settles O34: the byte read is the one at `physAddr`, sign-extended. -/
theorem frameReadAnswersTheByte : Obligations.FrameReadAnswersTheByte := by
  refine fun f offset s ho hf => ⟨?_, memRead_of_unwritten ho⟩
  rcases exec_frameRead_cases f offset s with ⟨-, -, he⟩ | ⟨h, -⟩
  · exact he
  · omega

/-! ### Status registers -/

section
variable {s : State} {k : Nat}

/-- The six registers of R46, in their order. -/
theorem statusRegister_of_getElem? {v : Nat}
    (h : [s.hits, s.faults, s.lookups, s.tlb.length, s.freeNext.toNat, s.victim.toNat][k]? = some v) :
    k ≤ 5 ∧ statusRegister s k = v := by
  obtain ⟨hk, -⟩ := List.getElem?_eq_some_iff.mp h
  have hk5 : k ≤ 5 := Nat.le_of_lt_succ hk
  refine ⟨hk5, ?_⟩
  interval_cases k <;> exact Option.some.inj h

theorem cntMax_lt {c : Config} (h : c.cntWidth ≤ 32) : c.cntMax < 2 ^ 32 :=
  (Nat.sub_lt (Nat.two_pow_pos _) Nat.one_pos).trans_le (Nat.pow_le_pow_right (by decide) h)

theorem statusRegister_counter_le (hs : s.Legal) (hk : k < 3) : statusRegister s k ≤ s.cfg.cntMax := by
  interval_cases k
  · exact hs.hits_range
  · exact hs.faults_range
  · exact hs.lookups_range

theorem statusRegister_pointer_lt (hs : s.Legal) (hk : 3 ≤ k) : statusRegister s k < 2 ^ 16 := by
  match k with
  | 3 =>
    obtain ⟨-, -, -, -, -, -, -, -, -, hcap⟩ := hs.config
    exact hs.tlb_length.trans_lt hcap
  | 4 => exact s.freeNext.isLt
  | k + 5 => exact s.victim.isLt

end

/-- Settles O45: a counter fits 32 bits when its width does, a pointer and the TLB's length always. -/
theorem statsReadAnswersTheRegister : Obligations.StatsReadAnswersTheRegister := by
  intro sel s v hs hv
  obtain ⟨hsel, rfl⟩ := statusRegister_of_getElem? hv
  refine ⟨⟨_, ?_, res0OfNat_small⟩, fun hfits => ?_⟩
  · rcases exec_statsRead_cases sel s with ⟨-, he⟩ | ⟨h, -⟩
    · exact he
    · omega
  · by_cases hk : 3 ≤ sel.toNat
    · exact (statusRegister_pointer_lt hs hk).trans (by decide)
    · exact (statusRegister_counter_le hs (Nat.not_le.mp hk)).trans_lt (cntMax_lt (hfits.resolve_right hk))

end Sys2Proof.Machine
end

section
/-! TRANSLATE (44_translate.md R240 to R247): the exact effect of each of its three paths in a legal state, and what it
answers in a coherent one (R249 to R253, 43_frames.md R207). -/
namespace Sys2Proof.Machine
open Sys2Proof

/-! ### The paths -/

section
variable {s : State} {p : Nat} {f : FrameNo}

theorem resolve_of_tlbHit (h : tlbLookup s.tlb p = some f) : resolve s p = .ok ⟨s, f, true, false, false⟩ := by
  simp only [resolve, h]

theorem resolve_of_ptHit (htlb : tlbLookup s.tlb p = none) (hpt : ptLookup s.pt p = some f) :
    resolve s p =
      .ok ⟨{ s with tlb := (tlbInsert s.cfg.tlbCap s.tlb p f).tlb }, f, false, false, false⟩ := by
  simp only [resolve, htlb, hpt]

theorem resolve_of_fault (htlb : tlbLookup s.tlb p = none) (hpt : ptLookup s.pt p = none)
    (hstore : (p + 1) * s.cfg.pageSize ≤ s.cfg.storeLen) :
    resolve s p = .ok ⟨faultState s p, (frameAlloc s).frame, false, true, (frameAlloc s).reclaimed⟩ := by
  rcases resolve_cases s p with ⟨g, h, -⟩ | ⟨g, -, h, -⟩ | ⟨-, -, -, he⟩ | ⟨-, -, h, -⟩
  · cases h.symm.trans htlb
  · cases h.symm.trans hpt
  · exact he
  · exact absurd hstore h.not_ge

end

theorem res0OfNat_physAddr {c : Config} (hc : c.WellFormed) {f : FrameNo} {o : Nat} (hf : f.toNat < c.frameLimit)
    (ho : o < c.pageSize) : res0OfNat (physAddr c f o) = BitVec.ofNat 32 (physAddr c f o) :=
  res0OfNat_small (res0OfNat_physAddr_toNat hc hf ho ▸ BitVec.isLt _)

/-- In a legal state a settled TRANSLATE completes (R244 to R247). -/
theorem exec_translate_of_legal {s : State} (hs : s.Legal) {la : OperandA} {r : Resolution}
    (h : resolve s (decompose s.cfg la).1 = .ok r) :
    exec (.translate la) s = .next (answer (countLookup r.st r.hit r.fault) (okWord
      { hit := r.hit, fault := r.fault, evict := r.evict
        res0 := BitVec.ofNat 32 (physAddr s.cfg r.frame (decompose s.cfg la).2)
        res1 := sext16 (memRead r.st (physAddr s.cfg r.frame (decompose s.cfg la).2)) })) := by
  have hf := hs.resolve_frame_lt h
  rw [exec_translate_of_resolve h (resolve_ok_cfg h), if_pos hf,
    res0OfNat_physAddr hs.config hf (decompose_offset_lt _ _)]

/-! ### The TLB hit and the page-table hit -/

theorem sat_eq_self {c : Config} {x : Nat} (h : x ≤ c.cntMax) : sat c x = x := min_eq_left h

theorem tlbInsert_tlb_of_absent {cap : Nat} {t : List TlbEntry} {p : Nat} (f : FrameNo)
    (habsent : ∀ e ∈ t, e.page ≠ p) :
    (tlbInsert cap t p f).tlb = (if t.length < cap then t else t.tail) ++ [⟨p, f⟩] := by
  split
  next hfree => rw [tlbInsert_of_absent_of_lt f habsent hfree]
  next hfull => rw [tlbInsert_of_absent_of_ge f habsent (Nat.not_lt.mp hfull)]

/-- Settles O35: the TLB's entry settles the frame, and the faults stay below their maximum. -/
theorem translateUsesTheTlbOnAHit : Obligations.TranslateUsesTheTlbOnAHit := by
  intro la s f hs he
  rw [exec_translate_of_legal hs (resolve_of_tlbHit (tlbLookup_of_mem hs.tlb_unique he))]
  simp only [countLookup, answer, Bool.toNat_false, Nat.add_zero, sat_eq_self hs.faults_range]
  rfl

/-- Settles O36: the page table's mapping settles the frame and is appended to the TLB. -/
theorem translateRefillsTheTlbFromThePageTable : Obligations.TranslateRefillsTheTlbFromThePageTable := by
  intro la s f hs habsent hmapped
  have hpt : ptLookup s.pt (decompose s.cfg la).1 = some f := ptLookup_of_mem hs.pt_rising hmapped
  rw [exec_translate_of_legal hs (resolve_of_ptHit (tlbLookup_eq_none.mpr habsent) hpt)]
  simp only [countLookup, answer, Bool.toNat_false, Nat.add_zero, sat_eq_self hs.faults_range,
    sat_eq_self hs.hits_range, tlbInsert_tlb_of_absent f habsent]
  rfl

/-! ### The page fault -/

/-- States that agree on every field are equal. -/
theorem State.eq_of_fields {s t : State} (hcfg : s.cfg = t.cfg) (htlb : s.tlb = t.tlb) (hpt : s.pt = t.pt)
    (hfreeNext : s.freeNext = t.freeNext) (hvictim : s.victim = t.victim) (hframe : s.frame = t.frame)
    (hhits : s.hits = t.hits) (hfaults : s.faults = t.faults) (hlookups : s.lookups = t.lookups)
    (hdraw : s.draw = t.draw) (hinputs : s.inputs = t.inputs) (hresponse : s.response = t.response) : s = t := by
  cases s
  cases t
  simp_all only

/-- What `FrameAlloc` leaves and returns, with `free` for the path it takes (R201, R203). -/
structure AllocatedBy (s : State) (free : Bool) (a : FrameAllocation) : Prop where
  frame : a.frame = if free then s.freeNext else s.victim
  reclaimed : a.reclaimed = !free
  tlb : a.st.tlb = if free then s.tlb else s.tlb.filter fun e => e.frame ≠ a.frame
  freeNext : a.st.freeNext = if free then BitVec.ofNat 16 (s.freeNext.toNat + 1) else s.freeNext
  victim : a.st.victim = if free then s.victim else BitVec.ofNat 16 ((s.victim.toNat + 1) % s.cfg.frameLimit)
  pt : ∀ q, ptLookup a.st.pt q =
    if free = false ∧ ptLookup s.pt q = some a.frame then none else ptLookup s.pt q

theorem State.Legal.frameAlloc_allocatedBy {s : State} (hs : s.Legal) {free : Bool}
    (hfree : free = true ↔ s.freeNext.toNat < s.cfg.frameLimit) : AllocatedBy s free (Machine.frameAlloc s) := by
  cases free with
  | true =>
    rw [frameAlloc_of_free (hfree.mp rfl)]
    exact ⟨rfl, rfl, rfl, frameNo_add_one _, rfl, fun q => rfl⟩
  | false =>
    have hfull := hs.free_or_exhausted.resolve_left (mt hfree.mpr Bool.false_ne_true)
    rw [frameAlloc_of_exhausted hfull]
    refine ⟨rfl, rfl, tlbInvalidateFrame_eq_filter _ _, rfl, rfl, fun q => ?_⟩
    simpa using ptLookup_ptInvalidateFrame hs.pt_rising s.victim q

/-- The allocator maps and caches no page. -/
theorem frameAlloc_tlb_subset (s : State) : ∀ e ∈ (frameAlloc s).st.tlb, e ∈ s.tlb := by
  rcases frameAlloc_cases s with ⟨-, h⟩ | ⟨-, h⟩ <;> rw [h]
  · exact fun e he => he
  · exact fun e he => (mem_tlbInvalidateFrame.mp he).left

theorem memRead_faultState_inside {s : State} {p o : Nat} (hstore : (p + 1) * s.cfg.pageSize ≤ s.cfg.storeLen)
    (ho : o < s.cfg.pageSize) :
    s.cfg.store[p * s.cfg.pageSize + o]? =
      some (memRead (faultState s p) (physAddr s.cfg (frameAlloc s).frame o)) := by
  rw [memRead_faultState, memRead_frameWrite_inside (storePage_length hstore) ho, storePage_getElem? ho]

theorem memRead_faultState_outside {s : State} {p pa : Nat} (hstore : (p + 1) * s.cfg.pageSize ≤ s.cfg.storeLen)
    (hpa : pa < (frameAlloc s).frame.toNat * s.cfg.pageSize ∨
      ((frameAlloc s).frame.toNat + 1) * s.cfg.pageSize ≤ pa) :
    memRead (faultState s p) pa = memRead s pa := by
  rw [memRead_faultState, memRead_frameWrite_outside (storePage_length hstore) hpa]

/-- Settles O37: the fields of `faultState`, by what the allocator left. -/
theorem translateHandlesAPageFault : Obligations.TranslateHandlesAPageFault := by
  intro la s hs htlb hpt hstore free f tlb hfree hf ht
  have halloc := hs.frameAlloc_allocatedBy hfree
  obtain rfl : (frameAlloc s).frame = f := halloc.frame.trans hf.symm
  obtain rfl : (frameAlloc s).st.tlb = tlb := halloc.tlb.trans ht.symm
  have habsent : ∀ e ∈ (frameAlloc s).st.tlb, e.page ≠ (decompose s.cfg la).1 :=
    fun e he => htlb e (frameAlloc_tlb_subset s e he)
  refine ⟨_, exec_translate_of_legal hs
    (resolve_of_fault (tlbLookup_eq_none.mpr htlb) (ptLookup_eq_none.mpr hpt) hstore), ?state, fun q => ?pt,
    fun o ho => memRead_faultState_inside hstore ho, fun pa hpa => memRead_faultState_outside hstore hpa⟩
  case state =>
    apply State.eq_of_fields
    case htlb => exact tlbInsert_tlb_of_absent _ habsent
    case hfreeNext => exact halloc.freeNext
    case hvictim => exact halloc.victim
    case hresponse => rw [halloc.reclaimed]; rfl
    all_goals simp [sat, hs.hits_range]
  case pt =>
    rw [answer_pt, countLookup_pt, faultState_pt, ptLookup_ptSet, halloc.pt]

/-! ### Again the same address -/

/-- After TRANSLATE the TLB maps the page to the frame it settled. -/
theorem resolve_ok_tlbLookup {s : State} {p : Nat} {r : Resolution} (h : resolve s p = .ok r) :
    tlbLookup r.st.tlb p = some r.frame := by
  rcases resolve_cases s p with ⟨f, htlb, he⟩ | ⟨f, htlb, -, he⟩ | ⟨htlb, -, -, he⟩ | ⟨-, -, -, he⟩ <;>
    cases he.symm.trans h
  · exact htlb
  · rw [tlbLookup_tlbInsert, htlb]
    rfl
  · have habsent : tlbLookup (frameAlloc s).st.tlb p = none :=
      tlbLookup_eq_none.mpr fun e he => tlbLookup_eq_none.mp htlb e (frameAlloc_tlb_subset s e he)
    rw [faultState_tlb, tlbLookup_tlbInsert, habsent]
    rfl

/-- In a legal state TRANSLATE completes on its settled path or answers STORE_READ_ERROR (R245, R248). -/
theorem exec_translate_cases_of_legal {s : State} (hs : s.Legal) (la : OperandA) :
    (∃ r, resolve s (decompose s.cfg la).1 = .ok r ∧
      exec (.translate la) s = .next (answer (countLookup r.st r.hit r.fault) (okWord
        { hit := r.hit, fault := r.fault, evict := r.evict
          res0 := BitVec.ofNat 32 (physAddr s.cfg r.frame (decompose s.cfg la).2)
          res1 := sext16 (memRead r.st (physAddr s.cfg r.frame (decompose s.cfg la).2)) }))) ∨
    exec (.translate la) s = .next (raise .storeReadError s) := by
  rcases exec_translate_cases la s with ⟨r, hr, -⟩ | ⟨r, hr, -⟩ | ⟨-, he⟩
  · exact .inl ⟨r, hr, exec_translate_of_legal hs hr⟩
  · exact .inl ⟨r, hr, exec_translate_of_legal hs hr⟩
  · exact .inr he

theorem respRes1_okWord (reply : Reply) : respRes1 (okWord reply) = reply.res1 := by
  obtain ⟨-, -, -, -, -, hres1, -⟩ := okWord_fields reply
  exact hres1

theorem respHit_okWord (reply : Reply) : respHit (okWord reply) = reply.hit := by
  obtain ⟨-, hhit, -⟩ := okWord_fields reply
  exact hhit

/-- Settles O39: the first TRANSLATE leaves its frame in the TLB, and the second reads the same address there. -/
theorem translateIsIdempotent : Obligations.TranslateIsIdempotent := by
  intro la s t r hs hexec hr hok
  rcases exec_translate_cases_of_legal hs la with ⟨q, hq, he⟩ | he <;> cases he.symm.trans hexec <;> cases hr
  · have hcfg : q.st.cfg = s.cfg := resolve_ok_cfg hq
    refine ⟨q.frame, resolve_ok_tlbLookup hq, fun u hu hucfg hulookup hbytes => ?_⟩
    rw [answer_cfg, countLookup_cfg, hcfg] at hucfg hbytes
    have hread := hbytes _ (decompose_offset_lt s.cfg la)
    rw [← hucfg] at hulookup
    refine ⟨_, _, exec_translate_of_legal hu (resolve_of_tlbHit hulookup), rfl, respStatus_okWord _,
      respHit_okWord _, ?_, ?_, rfl, sat_eq_self hu.faults_range⟩
    · rw [respRes0_okWord, respRes0_okWord, hucfg]
    · rw [respRes1_okWord, respRes1_okWord, hucfg]
      exact congrArg sext16 hread
  · exact absurd hok (respStatus_errorWord_ne_zero _)

/-! ### In a coherent state -/

theorem Coherent.exec_translate {s t : State} (hs : Coherent s) (hlegal : s.Legal) {la : OperandA}
    (h : exec (.translate la) s = .next t) : Coherent t := by
  obtain ⟨u, w, heffect, rfl⟩ := exec_effect h
  exact (hs.effect hlegal rfl heffect).answer w

/-- I1 through lookups. -/
theorem Coherent.ptLookup_of_tlbLookup {s : State} (hs : Coherent s) {p : Nat} {f : FrameNo}
    (h : tlbLookup s.tlb p = some f) : ptLookup s.pt p = some f :=
  hs.tlb_agrees _ (tlbLookup_mem h)

/-- Settles O58: the state TRANSLATE leaves is coherent and maps the page to the frame it read. -/
theorem coherentTranslateReturnsTheStoreByte : Obligations.CoherentTranslateReturnsTheStoreByte := by
  intro la s t r hlegal hs hexec hr
  have ht := hs.exec_translate hlegal hexec
  rcases exec_translate_cases_of_legal hlegal la with ⟨q, hq, he⟩ | he <;> cases he.symm.trans hexec <;> cases hr
  · have hcfg : q.st.cfg = s.cfg := resolve_ok_cfg hq
    have ho := decompose_offset_lt s.cfg la
    have hmapped := ht.ptLookup_of_tlbLookup (resolve_ok_tlbLookup hq)
    obtain ⟨b, hb, hget⟩ := ht.frames_hold _ (ptLookup_mem hmapped) _ (by simpa [hcfg] using ho)
    simp only [answer_cfg, countLookup_cfg, hcfg] at hb hget
    refine ⟨.inl (respStatus_okWord _), fun _ => ⟨b, q.frame, hb, ?_, hmapped, ?_⟩⟩
    · rw [respRes1_okWord]
      exact congrArg sext16 (memRead_of_get? hget)
    · have hf := hlegal.resolve_frame_lt hq
      rw [respRes0_okWord, ← res0OfNat_physAddr hlegal.config hf ho]
      exact res0OfNat_physAddr_toNat hlegal.config hf ho
  · exact ⟨.inr rfl, fun h => absurd h (respStatus_errorWord_ne_zero _)⟩

/-- What a page fault leaves, as far as R207 speaks of it. -/
theorem exec_translate_fault {s : State} (hs : s.Legal) {la : OperandA}
    (htlb : tlbLookup s.tlb (decompose s.cfg la).1 = none) (hpt : ptLookup s.pt (decompose s.cfg la).1 = none)
    (hstore : ((decompose s.cfg la).1 + 1) * s.cfg.pageSize ≤ s.cfg.storeLen) :
    ∃ t, exec (.translate la) s = .next t ∧
      t.pt = ptSet (frameAlloc s).st.pt (decompose s.cfg la).1 (frameAlloc s).frame ∧
      tlbLookup t.tlb (decompose s.cfg la).1 = some (frameAlloc s).frame ∧
      t.victim = (frameAlloc s).st.victim :=
  ⟨_, exec_translate_of_legal hs (resolve_of_fault htlb hpt hstore), rfl,
    resolve_ok_tlbLookup (resolve_of_fault htlb hpt hstore), rfl⟩

theorem Coherent.tlbLookup_eq_none {s : State} (hs : Coherent s) {p : Nat} (hpt : ptLookup s.pt p = none) :
    tlbLookup s.tlb p = none := by
  cases h : tlbLookup s.tlb p with
  | none => rfl
  | some f => cases (hs.ptLookup_of_tlbLookup h).symm.trans hpt

/-- With no free frame the victim holds a page (I2). -/
theorem Coherent.exists_victim_page {s : State} (hs : Coherent s) (hlegal : s.Legal)
    (hfull : s.freeNext.toNat = s.cfg.frameLimit) : ∃ q, (q, s.victim) ∈ s.pt := by
  obtain ⟨⟨q, v⟩, hmem, hv⟩ := hs.frames_mapped s.victim.toNat (hfull ▸ hlegal.victim_range)
  obtain rfl : v = s.victim := BitVec.eq_of_toNat_eq hv
  exact ⟨q, hmem⟩

/-- Settles O60: the victim holds a page, by I2; the shootdown unmaps it, and coherence afterwards gives the rest. -/
theorem exhaustedMemoryReclaimsTheOldestFrame : Obligations.ExhaustedMemoryReclaimsTheOldestFrame := by
  intro la s hlegal hs hfull habsent hstore
  obtain ⟨q, hmem⟩ := hs.exists_victim_page hlegal hfull
  have hq : ptLookup s.pt q = some s.victim := ptLookup_of_mem hlegal.pt_rising hmem
  have hpt := ptLookup_eq_none.mpr habsent
  obtain ⟨t, hexec, htpt, httlb, hvictim⟩ := exec_translate_fault hlegal (hs.tlbLookup_eq_none hpt) hpt hstore
  have ht := hs.exec_translate hlegal hexec
  have hunmapped : ptLookup t.pt q = none := by
    have hne : q ≠ (decompose s.cfg la).1 := habsent _ hmem
    rw [htpt, ptLookup_ptSet, if_neg hne, frameAlloc_of_exhausted hfull]
    exact (ptLookup_ptInvalidateFrame hlegal.pt_rising s.victim q).trans (if_pos hq)
  have hmapped : ptLookup t.pt (decompose s.cfg la).1 = some s.victim := by
    rw [ht.ptLookup_of_tlbLookup httlb, frameAlloc_of_exhausted hfull]
  refine ⟨t, q, hexec, hq, hunmapped, fun e he h => ?_, ht.frames_hold _ (ptLookup_mem hmapped), hmapped, ?_⟩
  · cases (h ▸ ht.tlb_agrees e he).symm.trans hunmapped
  · rw [hvictim, frameAlloc_victim_of_exhausted hlegal hfull]

end Sys2Proof.Machine
end
